-- ==== Sys2Proof/Word.lean ====
section
/-! DEFINITION. The machine's words: the bit vectors of spec/00_scope.md R6 and spec/30_encoding.md R52. -/

namespace Sys2Proof

/-- A general register, a timer, a byte of memory: 8 bits (R13, R19, R22). -/
abbrev Byte := BitVec 8

/-- `PC`, `I`, `IR`, a call-stack slot, an instruction word: 16 bits (R14, R15, R17, R23, R50). -/
abbrev Word := BitVec 16

/-- A 4-bit field: a register number `x` or `y`, the nibble `n`, a key code (R52, R122). -/
abbrev Nibble := BitVec 4

/-- The 12-bit address field `nnn` (R52). -/
abbrev Addr12 := BitVec 12

end Sys2Proof
end

