-- ==== Sys2Proof/Syntax.lean ====
section
/-! DEFINITION. The instructions: one constructor per row of spec/opcode_table.json (R51). The bits a row ignores are
kept as fields (R62), so that decoding loses nothing: `z` is bits 11:8 of `00E0`/`00EE`, the last field of
`seReg`/`sneReg` is bits 3:0 of `5xy0`/`9xy0`, and `shr`/`shl` keep their unused `y`. -/

namespace Sys2Proof

inductive Instr where
  /-- `00E0`, words `0zE0` (R111, R56). -/
  | cls (z : Nibble)
  /-- `00EE`, words `0zEE` (R76, R56). -/
  | ret (z : Nibble)
  /-- `1nnn` (R77). -/
  | jp (nnn : Addr12)
  /-- `2nnn` (R78). -/
  | call (nnn : Addr12)
  /-- `3xkk` (R79). -/
  | seImm (x : Nibble) (kk : Byte)
  /-- `4xkk` (R80). -/
  | sneImm (x : Nibble) (kk : Byte)
  /-- `5xy0`, words `5xyN` (R81, R56). -/
  | seReg (x y n : Nibble)
  /-- `6xkk` (R86). -/
  | ldImm (x : Nibble) (kk : Byte)
  /-- `7xkk` (R87). -/
  | addImm (x : Nibble) (kk : Byte)
  /-- `8xy0` (R88). -/
  | ldReg (x y : Nibble)
  /-- `8xy1` (R89). -/
  | orReg (x y : Nibble)
  /-- `8xy2` (R90). -/
  | andReg (x y : Nibble)
  /-- `8xy3` (R91). -/
  | xorReg (x y : Nibble)
  /-- `8xy4` (R92). -/
  | addReg (x y : Nibble)
  /-- `8xy5` (R93). -/
  | sub (x y : Nibble)
  /-- `8xy6` (R94); `y` is not used. -/
  | shr (x y : Nibble)
  /-- `8xy7` (R95). -/
  | subn (x y : Nibble)
  /-- `8xyE` (R96); `y` is not used. -/
  | shl (x y : Nibble)
  /-- `9xy0`, words `9xyN` (R82, R56). -/
  | sneReg (x y n : Nibble)
  /-- `Annn` (R101). -/
  | ldI (nnn : Addr12)
  /-- `Bnnn` (R83). -/
  | jpV0 (nnn : Addr12)
  /-- `Cxkk` (R97). -/
  | rnd (x : Nibble) (kk : Byte)
  /-- `Dxyn` (R112). -/
  | drw (x y n : Nibble)
  /-- `Ex9E` (R116). -/
  | skp (x : Nibble)
  /-- `ExA1` (R117). -/
  | sknp (x : Nibble)
  /-- `Fx07` (R118). -/
  | ldVxDT (x : Nibble)
  /-- `Fx0A` (R119). -/
  | ldVxK (x : Nibble)
  /-- `Fx15` (R120). -/
  | ldDTVx (x : Nibble)
  /-- `Fx18` (R121). -/
  | ldSTVx (x : Nibble)
  /-- `Fx1E` (R102). -/
  | addI (x : Nibble)
  /-- `Fx29` (R103). -/
  | ldF (x : Nibble)
  /-- `Fx33` (R104). -/
  | ldB (x : Nibble)
  /-- `Fx55` (R105). -/
  | stRegs (x : Nibble)
  /-- `Fx65` (R106). -/
  | ldRegs (x : Nibble)
  deriving DecidableEq, Repr

/-- The instruction's mnemonic in spec/opcode_table.json, letter for letter. -/
def Instr.mnemonic : Instr → String
  | .cls _ => "CLS"
  | .ret _ => "RET"
  | .jp _ => "JP_nnn"
  | .call _ => "CALL_nnn"
  | .seImm _ _ => "SE_Vx__kk"
  | .sneImm _ _ => "SNE_Vx__kk"
  | .seReg _ _ _ => "SE_Vx__Vy"
  | .ldImm _ _ => "LD_Vx__kk"
  | .addImm _ _ => "ADD_Vx__kk"
  | .ldReg _ _ => "LD_Vx__Vy"
  | .orReg _ _ => "OR_Vx__Vy"
  | .andReg _ _ => "AND_Vx__Vy"
  | .xorReg _ _ => "XOR_Vx__Vy"
  | .addReg _ _ => "ADD_Vx__Vy"
  | .sub _ _ => "SUB_Vx__Vy"
  | .shr _ _ => "SHR_Vx"
  | .subn _ _ => "SUBN_Vx__Vy"
  | .shl _ _ => "SHL_Vx"
  | .sneReg _ _ _ => "SNE_Vx__Vy"
  | .ldI _ => "LD_I__nnn"
  | .jpV0 _ => "JP_V0__nnn"
  | .rnd _ _ => "RND_Vx__kk"
  | .drw _ _ _ => "DRW_Vx__Vy__n"
  | .skp _ => "SKP_Vx"
  | .sknp _ => "SKNP_Vx"
  | .ldVxDT _ => "LD_Vx__DT"
  | .ldVxK _ => "LD_Vx__K"
  | .ldDTVx _ => "LD_DT__Vx"
  | .ldSTVx _ => "LD_ST__Vx"
  | .addI _ => "ADD_I__Vx"
  | .ldF _ => "LD_F__Vx"
  | .ldB _ => "LD_B__Vx"
  | .stRegs _ => "LD__I___Vx"
  | .ldRegs _ => "LD_Vx___I"

end Sys2Proof
end

