-- ==== Sys2Proof/Decode.lean ====
section
/-! DEFINITION. The decoder of spec/30_encoding.md R54, total on every word, and the encoder written from the formats
of R53 and the match values of R51. -/

namespace Sys2Proof

/-! ### Fields (R52) -/

/-- The primary code, `IR[15:12]`. -/
def fieldOp (w : Word) : Nibble := w.extractLsb' 12 4

/-- `x = IR[11:8]`. -/
def fieldX (w : Word) : Nibble := w.extractLsb' 8 4

/-- `y = IR[7:4]`. -/
def fieldY (w : Word) : Nibble := w.extractLsb' 4 4

/-- `n = IR[3:0]`. -/
def fieldN (w : Word) : Nibble := w.extractLsb' 0 4

/-- `kk = IR[7:0]`. -/
def fieldKK (w : Word) : Byte := w.extractLsb' 0 8

/-- `nnn = IR[11:0]`. -/
def fieldNNN (w : Word) : Addr12 := w.extractLsb' 0 12

/-! ### Decode (R54, R55) -/

/-- Family 0x0, by the trailing byte; bits 11:8 are not examined (R56). -/
def decodeFamily0 (w : Word) : Option Instr :=
  if fieldKK w = 0xE0#8 then some (.cls (fieldX w))
  else if fieldKK w = 0xEE#8 then some (.ret (fieldX w))
  else none

/-- Family 0x8, by the trailing nibble. -/
def decodeFamily8 (w : Word) : Option Instr :=
  if fieldN w = 0x0#4 then some (.ldReg (fieldX w) (fieldY w))
  else if fieldN w = 0x1#4 then some (.orReg (fieldX w) (fieldY w))
  else if fieldN w = 0x2#4 then some (.andReg (fieldX w) (fieldY w))
  else if fieldN w = 0x3#4 then some (.xorReg (fieldX w) (fieldY w))
  else if fieldN w = 0x4#4 then some (.addReg (fieldX w) (fieldY w))
  else if fieldN w = 0x5#4 then some (.sub (fieldX w) (fieldY w))
  else if fieldN w = 0x6#4 then some (.shr (fieldX w) (fieldY w))
  else if fieldN w = 0x7#4 then some (.subn (fieldX w) (fieldY w))
  else if fieldN w = 0xE#4 then some (.shl (fieldX w) (fieldY w))
  else none

/-- Family 0xE, by the trailing byte. -/
def decodeFamilyE (w : Word) : Option Instr :=
  if fieldKK w = 0x9E#8 then some (.skp (fieldX w))
  else if fieldKK w = 0xA1#8 then some (.sknp (fieldX w))
  else none

/-- Family 0xF, by the trailing byte. -/
def decodeFamilyF (w : Word) : Option Instr :=
  if fieldKK w = 0x07#8 then some (.ldVxDT (fieldX w))
  else if fieldKK w = 0x0A#8 then some (.ldVxK (fieldX w))
  else if fieldKK w = 0x15#8 then some (.ldDTVx (fieldX w))
  else if fieldKK w = 0x18#8 then some (.ldSTVx (fieldX w))
  else if fieldKK w = 0x1E#8 then some (.addI (fieldX w))
  else if fieldKK w = 0x29#8 then some (.ldF (fieldX w))
  else if fieldKK w = 0x33#8 then some (.ldB (fieldX w))
  else if fieldKK w = 0x55#8 then some (.stRegs (fieldX w))
  else if fieldKK w = 0x65#8 then some (.ldRegs (fieldX w))
  else none

/-- The decoder of R54: `none` is `Unrecognized`. -/
def decodeWord (w : Word) : Option Instr :=
  if fieldOp w = 0x0#4 then decodeFamily0 w
  else if fieldOp w = 0x1#4 then some (.jp (fieldNNN w))
  else if fieldOp w = 0x2#4 then some (.call (fieldNNN w))
  else if fieldOp w = 0x3#4 then some (.seImm (fieldX w) (fieldKK w))
  else if fieldOp w = 0x4#4 then some (.sneImm (fieldX w) (fieldKK w))
  else if fieldOp w = 0x5#4 then some (.seReg (fieldX w) (fieldY w) (fieldN w))
  else if fieldOp w = 0x6#4 then some (.ldImm (fieldX w) (fieldKK w))
  else if fieldOp w = 0x7#4 then some (.addImm (fieldX w) (fieldKK w))
  else if fieldOp w = 0x8#4 then decodeFamily8 w
  else if fieldOp w = 0x9#4 then some (.sneReg (fieldX w) (fieldY w) (fieldN w))
  else if fieldOp w = 0xA#4 then some (.ldI (fieldNNN w))
  else if fieldOp w = 0xB#4 then some (.jpV0 (fieldNNN w))
  else if fieldOp w = 0xC#4 then some (.rnd (fieldX w) (fieldKK w))
  else if fieldOp w = 0xD#4 then some (.drw (fieldX w) (fieldY w) (fieldN w))
  else if fieldOp w = 0xE#4 then decodeFamilyE w
  else decodeFamilyF w

/-- Why a sequence of bytes gives no instruction. -/
inductive DecodeError where
  /-- The word is outside the 34 instructions (R57). -/
  | unrecognized (word : Word)
  /-- Fewer than the two bytes of an instruction (R50) are there. -/
  | truncated
  deriving DecidableEq, Repr

/-- The instruction word of two bytes, the byte at the lower address high: `(high << 8) | low` (R43, R66). -/
def wordOfBytes (hi lo : Byte) : Word := (hi.setWidth 16 <<< 8) ||| lo.setWidth 16

/-- Decode the first two bytes of a sequence (R50); the rest is handed back. -/
def decodeBytes : List Byte → Except DecodeError (Instr × List Byte)
  | hi :: lo :: rest =>
    match decodeWord (wordOfBytes hi lo) with
    | some i => .ok (i, rest)
    | none => .error (.unrecognized (wordOfBytes hi lo))
  | [_] => .error .truncated
  | [] => .error .truncated

/-! ### The opcode table (R51) -/

/-- A row of the opcode table: the word `w` is the row's instruction where `w & mask = value`. -/
structure TableRow where
  mnemonic : String
  mask : Word
  value : Word
  deriving DecidableEq, Repr

/-- Whether a word is a row's instruction. -/
def TableRow.hits (r : TableRow) (w : Word) : Bool := w &&& r.mask == r.value

/-- The table of R51, row by row as spec/opcode_table.json gives it. The decoder is written from R54 and does not use
it. -/
def opcodeTable : List TableRow :=
  [⟨"CLS", 0xF0FF#16, 0x00E0#16⟩,
   ⟨"RET", 0xF0FF#16, 0x00EE#16⟩,
   ⟨"JP_nnn", 0xF000#16, 0x1000#16⟩,
   ⟨"CALL_nnn", 0xF000#16, 0x2000#16⟩,
   ⟨"SE_Vx__kk", 0xF000#16, 0x3000#16⟩,
   ⟨"SNE_Vx__kk", 0xF000#16, 0x4000#16⟩] ++
  [⟨"SE_Vx__Vy", 0xF000#16, 0x5000#16⟩,
   ⟨"LD_Vx__kk", 0xF000#16, 0x6000#16⟩,
   ⟨"ADD_Vx__kk", 0xF000#16, 0x7000#16⟩,
   ⟨"LD_Vx__Vy", 0xF00F#16, 0x8000#16⟩,
   ⟨"OR_Vx__Vy", 0xF00F#16, 0x8001#16⟩,
   ⟨"AND_Vx__Vy", 0xF00F#16, 0x8002#16⟩] ++
  [⟨"XOR_Vx__Vy", 0xF00F#16, 0x8003#16⟩,
   ⟨"ADD_Vx__Vy", 0xF00F#16, 0x8004#16⟩,
   ⟨"SUB_Vx__Vy", 0xF00F#16, 0x8005#16⟩,
   ⟨"SHR_Vx", 0xF00F#16, 0x8006#16⟩,
   ⟨"SUBN_Vx__Vy", 0xF00F#16, 0x8007#16⟩,
   ⟨"SHL_Vx", 0xF00F#16, 0x800E#16⟩] ++
  [⟨"SNE_Vx__Vy", 0xF000#16, 0x9000#16⟩,
   ⟨"LD_I__nnn", 0xF000#16, 0xA000#16⟩,
   ⟨"JP_V0__nnn", 0xF000#16, 0xB000#16⟩,
   ⟨"RND_Vx__kk", 0xF000#16, 0xC000#16⟩,
   ⟨"DRW_Vx__Vy__n", 0xF000#16, 0xD000#16⟩,
   ⟨"SKP_Vx", 0xF0FF#16, 0xE09E#16⟩] ++
  [⟨"SKNP_Vx", 0xF0FF#16, 0xE0A1#16⟩,
   ⟨"LD_Vx__DT", 0xF0FF#16, 0xF007#16⟩,
   ⟨"LD_Vx__K", 0xF0FF#16, 0xF00A#16⟩,
   ⟨"LD_DT__Vx", 0xF0FF#16, 0xF015#16⟩,
   ⟨"LD_ST__Vx", 0xF0FF#16, 0xF018#16⟩,
   ⟨"ADD_I__Vx", 0xF0FF#16, 0xF01E#16⟩] ++
  [⟨"LD_F__Vx", 0xF0FF#16, 0xF029#16⟩,
   ⟨"LD_B__Vx", 0xF0FF#16, 0xF033#16⟩,
   ⟨"LD__I___Vx", 0xF0FF#16, 0xF055#16⟩,
   ⟨"LD_Vx___I", 0xF0FF#16, 0xF065#16⟩]

/-! ### Encode (R51, R53) -/

/-- Format `A`: `op`, `nnn`. -/
def formatA (op : Nibble) (nnn : Addr12) : Word := (op.setWidth 16 <<< 12) ||| nnn.setWidth 16

/-- Formats `XK`, `XS` and `Z`: `op`, `x` (or the ignored nibble), a byte. -/
def formatXK (op x : Nibble) (kk : Byte) : Word :=
  (op.setWidth 16 <<< 12) ||| (x.setWidth 16 <<< 8) ||| kk.setWidth 16

/-- Formats `XY` and `XYN`: four nibbles. -/
def formatXYN (op x y n : Nibble) : Word :=
  (op.setWidth 16 <<< 12) ||| (x.setWidth 16 <<< 8) ||| (y.setWidth 16 <<< 4) ||| n.setWidth 16

/-- The word of an instruction. -/
def encode : Instr → Word
  | .cls z => formatXK 0x0 z 0xE0
  | .ret z => formatXK 0x0 z 0xEE
  | .jp nnn => formatA 0x1 nnn
  | .call nnn => formatA 0x2 nnn
  | .seImm x kk => formatXK 0x3 x kk
  | .sneImm x kk => formatXK 0x4 x kk
  | .seReg x y n => formatXYN 0x5 x y n
  | .ldImm x kk => formatXK 0x6 x kk
  | .addImm x kk => formatXK 0x7 x kk
  | .ldReg x y => formatXYN 0x8 x y 0x0
  | .orReg x y => formatXYN 0x8 x y 0x1
  | .andReg x y => formatXYN 0x8 x y 0x2
  | .xorReg x y => formatXYN 0x8 x y 0x3
  | .addReg x y => formatXYN 0x8 x y 0x4
  | .sub x y => formatXYN 0x8 x y 0x5
  | .shr x y => formatXYN 0x8 x y 0x6
  | .subn x y => formatXYN 0x8 x y 0x7
  | .shl x y => formatXYN 0x8 x y 0xE
  | .sneReg x y n => formatXYN 0x9 x y n
  | .ldI nnn => formatA 0xA nnn
  | .jpV0 nnn => formatA 0xB nnn
  | .rnd x kk => formatXK 0xC x kk
  | .drw x y n => formatXYN 0xD x y n
  | .skp x => formatXK 0xE x 0x9E
  | .sknp x => formatXK 0xE x 0xA1
  | .ldVxDT x => formatXK 0xF x 0x07
  | .ldVxK x => formatXK 0xF x 0x0A
  | .ldDTVx x => formatXK 0xF x 0x15
  | .ldSTVx x => formatXK 0xF x 0x18
  | .addI x => formatXK 0xF x 0x1E
  | .ldF x => formatXK 0xF x 0x29
  | .ldB x => formatXK 0xF x 0x33
  | .stRegs x => formatXK 0xF x 0x55
  | .ldRegs x => formatXK 0xF x 0x65

/-- The two bytes of a word as memory holds them: the high byte first (R43). -/
def bytesOfWord (w : Word) : List Byte := [w.extractLsb' 8 8, w.extractLsb' 0 8]

/-- The bits `w` of a table row of `nbits` bits, as the machine's one instruction word; the bits above `nbits` are 0. -/
def tableWord (nbits w : Nat) : Word := BitVec.ofNat 16 (w % 2 ^ nbits)

/-- What the decoder reads from a table row's bits, laid out in memory order. -/
def decodeTableWord (nbits w : Nat) : Option Instr :=
  match decodeBytes (bytesOfWord (tableWord nbits w)) with
  | .ok (i, _) => some i
  | .error _ => none

end Sys2Proof
end

