-- ==== Sys2Proof/Config.lean ====
section
/-! DEFINITION. The parameters of spec/00_scope.md R6 at the values the spec gives them (log 3, log 4), and the
free values of the machine: the inputs the environment supplies to a step (R8, R30; log 1). -/

namespace Sys2Proof

/-- `MEM_SIZE` (R6, D1): addresses 0x000 to 0xFFF. -/
abbrev Config.memSize : Nat := 4096

/-- `STACK_DEPTH` (R6, D2). -/
abbrev Config.stackDepth : Nat := 16

/-- `PROG_BASE` (R6): a program image is copied here. -/
abbrev Config.progBase : Nat := 0x200

/-- `RESET_PC` (R6, R147). -/
abbrev Config.resetPc : Word := 0x0200#16

/-- `FONT_BASE` (R6). -/
abbrev Config.fontBase : Nat := 0x050

/-- `GLYPH_BYTES` (R6). -/
abbrev Config.glyphBytes : Nat := 5

/-- `ADDR_LIMIT` (R6, D12): the threshold of the `Fx1E` flag. -/
abbrev Config.addrLimit : Nat := 0x0FFF

/-- `FB_ROWS` (R6). -/
abbrev Config.fbRows : Nat := 32

/-- `FB_COLS` (R6). -/
abbrev Config.fbCols : Nat := 64

/-- `FONT[0..79]` (R38), the spec's default. PRESUMED: the spec itself takes the values from general knowledge
(D15, U9); a claim about drawn glyph pixels rests on them. UNSAFE (log 4). -/
def Config.font : List Byte :=
  [0xF0, 0x90, 0x90, 0x90, 0xF0,  0x20, 0x60, 0x20, 0x20, 0x70,
   0xF0, 0x10, 0xF0, 0x80, 0xF0,  0xF0, 0x10, 0xF0, 0x10, 0xF0] ++
  [0x90, 0x90, 0xF0, 0x10, 0x10,  0xF0, 0x80, 0xF0, 0x10, 0xF0,
   0xF0, 0x80, 0xF0, 0x90, 0xF0,  0xF0, 0x10, 0x20, 0x40, 0x40] ++
  [0xF0, 0x90, 0xF0, 0x90, 0xF0,  0xF0, 0x90, 0xF0, 0x10, 0xF0,
   0xF0, 0x90, 0xF0, 0x90, 0x90,  0xE0, 0x90, 0xE0, 0x90, 0xE0] ++
  [0xF0, 0x80, 0x80, 0x80, 0xF0,  0xE0, 0x90, 0x90, 0x90, 0xE0,
   0xF0, 0x80, 0xF0, 0x80, 0xF0,  0xF0, 0x80, 0xF0, 0x80, 0x80]

/-- FREE VALUE: `keys_held` of the n-th free draw (R8, R30, U7); nothing constrains it (log 1). -/
opaque Config.keysHeld : Nat → BitVec 16

/-- FREE VALUE: `key_press` of the n-th free draw (R8, R30, U7, U8); nothing constrains it (log 1). -/
opaque Config.keyPress : Nat → Option Nibble

/-- FREE VALUE: `rand_byte` of the n-th free draw (R8, R30, R97, U6); nothing constrains it (log 1). -/
opaque Config.randByte : Nat → Byte

end Sys2Proof
end

