-- ==== Sys2Proof/Machine/State.lean ====
section
/-! DEFINITION. The machine's state as plain data: every piece of spec/10_state.md, and the model's own fields for the
step inputs and the session (log 1, log 10). -/

namespace Sys2Proof.Machine

/-- The four fatal causes of R125. They are raised by the fetch (R128), `2nnn` (R129), `00EE` (R130) and the data
accesses of `Dxyn`, `Fx33`, `Fx55`, `Fx65` (R131). R127 describes their entry, so a meaning TAKES them: it answers a
next state whose `status` is `faulted` with one of these (`Machine.raise`). No step answers `Outcome.fault`. -/
inductive Fault where
  /-- The fetch at `PC >= 0xFFF`. Raised by the fetch of any step. SAFE: it is the spec's own stop (R128). -/
  | outOfBoundsFetch
  /-- A call with all 16 slots in use. Raised by `2nnn`. SAFE: the spec's own stop (R129). -/
  | stackOverflow
  /-- A return with no slot in use. Raised by `00EE`. SAFE: the spec's own stop (R130). -/
  | stackUnderflow
  /-- A data address of 4096 or more. Raised by `Dxyn`, `Fx33`, `Fx55`, `Fx65`. SAFE: the spec's own stop, where its
  source gives no behaviour (R131, D4). -/
  | outOfBoundsData
  deriving DecidableEq, Repr

/-- Why an operation has no meaning in the model. -/
inductive Refusal where
  /-- An instruction whose meaning is not written yet. Raised by no arm of `exec`: all 34 have their meaning. SAFE. -/
  | notModelled (mnemonic : String)
  /-- `Load` where R149 leaves it undefined: after the first `Step`, or a second time in a session (D19, U3). Raised by
  `Machine.load` only, never by a step. SAFE. -/
  | loadOutsideSession
  deriving DecidableEq, Repr

/-- `STATUS` (R24). -/
inductive Status where
  | running
  | faulted (cause : Fault)
  deriving DecidableEq, Repr

/-- `FAULT_INFO` (R25, R126): the address and the word of the faulting instruction, and for `OutOfBoundsData` the first
data address out of bounds. -/
structure FaultInfo where
  addr : Word
  word : Word
  dataAddr : Option Word
  deriving DecidableEq, Repr

/-- What an operation that raises a fatal fault hands to the fault's entry (R10, `raise`): the cause, and the data
address where the cause has one. -/
structure FaultSignal where
  cause : Fault
  dataAddr : Option Word
  deriving DecidableEq, Repr

/-- An unrecognized-opcode report (R31, R71): the word and the address it was fetched from. -/
structure Report where
  word : Word
  addr : Word
  deriving DecidableEq, Repr

/-- The inputs of a step (R30). -/
structure StepInput where
  keysHeld : BitVec 16
  keyPress : Option Nibble
  randByte : Byte
  deriving DecidableEq, Repr

/-- The environment's side of a step. DESIGN CHOICE (log 1, SAFE): `input` holds the inputs sampled for the current
step, `script` those already supplied for coming steps, oldest first, and `tick` counts the free draws made where the
script had none. -/
structure Env where
  input : StepInput
  script : List StepInput
  tick : Nat
  deriving DecidableEq, Repr

/-- `MEM` (R22, R35): the bytes that differ from the reset contents, by rising address. -/
abbrev Memory := List Host.Cell

/-- `FB` (R21): 32 rows of 64 cells, true is on. -/
abbrev Screen := Vector (Vector Bool Config.fbCols) Config.fbRows

/-- The whole machine. -/
structure State where
  /-- `V[0..15]` (R13, R18). -/
  v : Vector Byte 16
  /-- `I` (R14). -/
  idx : Word
  /-- `STACK[0..15]` (R15). -/
  stack : Vector Word Config.stackDepth
  /-- `SP`, the number of live entries, 0 to 16 (R16). -/
  sp : Fin (Config.stackDepth + 1)
  /-- `PC` (R17). -/
  pc : Word
  /-- `DT` (R19). -/
  dt : Byte
  /-- `ST` (R20). -/
  st : Byte
  /-- `FB` (R21). -/
  fb : Screen
  /-- `MEM` (R22). -/
  mem : Memory
  /-- `IR` (R23). -/
  ir : Word
  /-- `STATUS` (R24). -/
  status : Status
  /-- `FAULT_INFO` (R25). -/
  faultInfo : FaultInfo
  /-- The `tone` output of the last step (R31, R70). -/
  tone : Bool
  /-- The `unrec` output of the last step (R31, R71). -/
  unrec : Option Report
  /-- The step inputs (R30): the model's own field (log 1). -/
  env : Env
  /-- Whether `Load` is legal now (R149): the model's own field (log 10). -/
  loadOpen : Bool
  deriving DecidableEq, Repr

/-- The inputs before the first step. DESIGN CHOICE (log 2): no step reads them, because every step samples its own. -/
def Env.reset : Env where
  input := { keysHeld := 0, keyPress := none, randByte := 0 }
  script := []
  tick := 0

/-- The state after `Reset()` (R32, R145, R146). -/
def State.reset : State where
  v := Vector.replicate 16 0
  idx := 0
  stack := Vector.replicate Config.stackDepth 0
  sp := 0
  pc := Config.resetPc
  dt := 0
  st := 0
  fb := Vector.replicate Config.fbRows (Vector.replicate Config.fbCols false)
  mem := []
  ir := 0
  status := .running
  faultInfo := { addr := 0, word := 0, dataAddr := none }
  tone := false
  unrec := none
  env := Env.reset
  loadOpen := true

end Sys2Proof.Machine
end

