-- ==== Sys2Proof/Machine/Ops.lean ====
section
/-! DEFINITION. The named operations over memory, the call stack, the framebuffer and the timers, the fetch, and the
entry into a fatal fault (spec/20_memory.md, 40_cycle.md, 41_control_flow.md, 44_display.md, 60_exceptions.md). -/

namespace Sys2Proof.Machine

/-! ### Memory (R35 to R42) -/

/-- What a byte reads as that nothing has stored to: the font at 0x050, 0 elsewhere (R32, R36, R148). -/
def resetByte (a : Nat) : Byte :=
  if Config.fontBase ≤ a then Config.font.getD (a - Config.fontBase) 0 else 0

/-- The byte at an address, listed or not. -/
def Memory.get : Memory → Nat → Byte
  | [], a => resetByte a
  | (k, b) :: m, a => if k = a then b else Memory.get m a

/-- `m` without an entry for `a`. -/
def Memory.erase (m : Memory) (a : Nat) : Memory := m.filter (fun c => decide (c.1 ≠ a))

/-- `m` with the entry `(a, b)` before the first entry of a higher address. -/
def Memory.insert : Memory → Nat → Byte → Memory
  | [], a, b => [(a, b)]
  | (k, c) :: m, a, b => if a < k then (a, b) :: (k, c) :: m else (k, c) :: Memory.insert m a b

/-- `MEM[a] <- b` in canonical form: a byte equal to the reset contents is not listed. -/
def Memory.set (m : Memory) (a : Nat) (b : Byte) : Memory :=
  if b = resetByte a then m.erase a else (m.erase a).insert a b

/-- The canonical form of the entries from address `lo` up: addresses strictly rising and inside `MEM`, no entry equal
to the reset contents. -/
def Memory.wfFrom : Nat → Memory → Bool
  | _, [] => true
  | lo, (k, b) :: m =>
    decide (lo ≤ k) && decide (k < Config.memSize) && decide (b ≠ resetByte k) && Memory.wfFrom (k + 1) m

/-- The canonical form of a memory. -/
def Memory.wf (m : Memory) : Bool := Memory.wfFrom 0 m

/-- The signal of a data access at an address outside memory (R131); the address recorded is 16 bits wide, which the
lowest out-of-bounds address of every access is (log 8). -/
def outOfBounds (a : Nat) : FaultSignal := { cause := .outOfBoundsData, dataAddr := some (BitVec.ofNat 16 a) }

/-- `MemRead(addr, 1)` (R41). -/
def memRead (m : Memory) (a : Nat) : Except FaultSignal Byte :=
  if a < Config.memSize then .ok (m.get a) else .error (outOfBounds a)

/-- `MemWrite(addr, 1, v)` (R42). -/
def memWrite (m : Memory) (a : Nat) (b : Byte) : Except FaultSignal Memory :=
  if a < Config.memSize then .ok (m.set a b) else .error (outOfBounds a)

/-- `MemRead` at `a`, `a + 1`, ...: `n` bytes in ascending order (R45, R100); the first address out of bounds is the
one that signals. -/
def readBlock (m : Memory) : Nat → Nat → Except FaultSignal (List Byte)
  | _, 0 => .ok []
  | a, n + 1 =>
    match memRead m a with
    | .error e => .error e
    | .ok b =>
      match readBlock m (a + 1) n with
      | .error e => .error e
      | .ok bs => .ok (b :: bs)

/-- `MemWrite` at `a`, `a + 1`, ...: the bytes in ascending order (R45, R100). Where one signals, nothing is written
(R108): the memory is only handed back whole. -/
def writeBlock (m : Memory) : Nat → List Byte → Except FaultSignal Memory
  | _, [] => .ok m
  | a, b :: bs =>
    match memWrite m a b with
    | .error e => .error e
    | .ok m' => writeBlock m' (a + 1) bs

/-- Bytes copied upward from `a`, no bound checked: the copy of `Load` once its bound is checked (R149). -/
def copyBytes (m : Memory) : Nat → List Byte → Memory
  | _, [] => m
  | a, b :: bs => copyBytes (m.set a b) (a + 1) bs

/-! ### Fetch and advance (R66, R67) -/

/-- Whether the fetch at `PC` is inside memory: not `PC + 1 >= MEM_SIZE`, on unbounded integers (R66). -/
def fetchable (s : State) : Bool := Nat.blt (s.pc.toNat + 1) Config.memSize

/-- `MEM[PC] || MEM[PC+1]` (R43, R66). -/
def fetchWord (s : State) : Word := wordOfBytes (s.mem.get s.pc.toNat) (s.mem.get (s.pc.toNat + 1))

/-- `IR` takes the fetched word and `PC` moves to the next sequential instruction, before dispatch (R66, R67). -/
def advance (w : Word) (s : State) : State := { s with ir := w, pc := s.pc + 2#16 }

/-- The instruction word `w` stored where the next fetch reads it, high byte first; a byte outside memory is not
stored (log 9). -/
def placeWord (w : Word) (s : State) : State :=
  if fetchable s then { s with mem := copyBytes s.mem s.pc.toNat (bytesOfWord w) } else s

/-! ### Taking a fatal fault (R127) -/

/-- Entry into a fatal fault: `s` is the state at the start of the step, so that every write of the step is discarded;
`STATUS` and `FAULT_INFO` are written and the outputs cleared. `w` is the instruction word, 0 where none was fetched
(R25, R126). -/
def raise (e : FaultSignal) (w : Word) (s : State) : State :=
  { s with
    status := .faulted e.cause
    faultInfo := { addr := s.pc, word := w, dataAddr := e.dataAddr }
    tone := false
    unrec := none }

/-- Run an instruction that can raise nothing: `IR` and `PC` first, then its rule (R67, R68). -/
def perform (i : Instr) (rule : State → State) (s : State) : Host.Outcome State Fault Refusal :=
  .next (rule (advance (encode i) s))

/-- Run an instruction that can raise: where its rule signals, the fault is taken from the state before the step
(R108, R127). -/
def performOrRaise (i : Instr) (rule : State → Except FaultSignal State) (s : State) :
    Host.Outcome State Fault Refusal :=
  match rule (advance (encode i) s) with
  | .ok t => .next t
  | .error e => .next (raise e (encode i) s)

/-! ### Call stack (R15, R16, D21) -/

/-- Push a return address; `StackOverflow` where all slots are in use (R78, R129). -/
def push (a : Word) (s : State) : Except FaultSignal State :=
  if h : s.sp.val < Config.stackDepth then
    .ok { s with stack := s.stack.set s.sp.val a h, sp := ⟨s.sp.val + 1, Nat.succ_lt_succ h⟩ }
  else .error { cause := .stackOverflow, dataAddr := none }

/-- Pop the newest return address into `PC`; `StackUnderflow` where the stack is empty (R76, R130). The popped slot
keeps its value. -/
def popToPc (s : State) : Except FaultSignal State :=
  if h : 0 < s.sp.val then
    have hlt : s.sp.val - 1 < Config.stackDepth := by have := s.sp.isLt; omega
    .ok { s with sp := ⟨s.sp.val - 1, Nat.lt_succ_of_lt hlt⟩, pc := s.stack[s.sp.val - 1] }
  else .error { cause := .stackUnderflow, dataAddr := none }

/-! ### Framebuffer (R21, R110 to R114) -/

/-- The framebuffer with every cell off (R111). -/
def blankScreen : Screen := Vector.replicate Config.fbRows (Vector.replicate Config.fbCols false)

/-- `FB[r][c]`; a cell outside the grid is off. -/
def Screen.get (f : Screen) (r c : Nat) : Bool :=
  if h : r < Config.fbRows ∧ c < Config.fbCols then (f[r]'h.1)[c]'h.2 else false

/-- `FB[r][c] <- FB[r][c] ^ 1`; a cell outside the grid is clipped (R114). -/
def Screen.flip (f : Screen) (r c : Nat) : Screen :=
  if h : r < Config.fbRows ∧ c < Config.fbCols then
    f.set r ((f[r]'h.1).set c (!(f[r]'h.1)[c]'h.2) h.2) h.1
  else f

/-- A framebuffer being drawn on, and whether a set pixel has been hit so far. -/
abbrev Canvas := Screen × Bool

/-- One sprite bit at row `r`, column `c` (R112): only a 1 bit does anything, and hitting a set pixel is a collision. -/
def drawBit (on : Bool) (r c : Nat) (p : Canvas) : Canvas :=
  if on then (p.1.flip r c, p.2 || p.1.get r c) else p

/-- The lowest `k` bits of a sprite byte anchored at column `cx`, most significant first: bit `7 - j` goes to column
`cx + j` (R114). -/
def drawBits (b : Byte) (r cx : Nat) : Nat → Canvas → Canvas
  | 0, p => p
  | k + 1, p => drawBits b r cx k (drawBit (b.getLsbD k) r (cx + (7 - k)) p)

/-- The sprite's rows downward from row `r` (R114). -/
def drawRows (cx : Nat) : Nat → List Byte → Canvas → Canvas
  | _, [], p => p
  | r, b :: bs, p => drawRows cx (r + 1) bs (drawBits b r cx 8 p)

/-! ### Timers (R69, R70) -/

/-- One count of a timer: down by 1, and 0 stays 0 (R69). -/
def countDown (t : Byte) : Byte := if t = 0#8 then 0#8 else t - 1#8

/-- The timer phase of a completed step: the tone, then both decrements (R65, R69, R70). -/
def timerPhase (s : State) : State :=
  { s with tone := s.st == 1#8, dt := countDown s.dt, st := countDown s.st }

/-- The end of the dispatch phase: the timer phase, unless the instruction took a fatal fault (R69, R127). -/
def finish (s : State) : State :=
  match s.status with
  | .running => timerPhase s
  | .faulted _ => s

/-! ### Step inputs and outputs (R30, R31, R72) -/

/-- The inputs of the next step: the first of the script, or free values where the script is empty (R8; log 1). -/
def nextInput (e : Env) : StepInput :=
  match e.script with
  | i :: _ => i
  | [] => { keysHeld := Config.keysHeld e.tick, keyPress := Config.keyPress e.tick, randByte := Config.randByte e.tick }

/-- The environment's side once those inputs are drawn. -/
def Env.drawn (e : Env) : Env :=
  match e.script with
  | _ :: rest => { e with script := rest }
  | [] => { e with tick := e.tick + 1 }

/-- The outputs cleared, as at the start of every step (R72). -/
def clearOutputs (s : State) : State := { s with tone := false, unrec := none }

/-- The start of a step: the outputs cleared and the inputs sampled (R30, R65); a `Load` is no longer legal (R149). -/
def beginStep (input : StepInput) (s : State) : State :=
  { s with tone := false, unrec := none, loadOpen := false, env := { s.env with input := input } }

/-- The dispatch of an unrecognized word: advance and report, nothing else (R71). -/
def reportUnrecognized (w : Word) (s : State) : State :=
  { advance w s with unrec := some { word := w, addr := s.pc } }

end Sys2Proof.Machine
end

