-- ==== Sys2Proof/Machine/Operands.lean ====
section
/-! DEFINITION. The operand forms: general registers, register blocks, the index register, addresses, skips, the key
and glyph numbers of a register (spec/10_state.md R13, 30_encoding.md R52 and R59, 41_control_flow.md R75,
45_timers_keys.md R122). -/

namespace Sys2Proof.Machine

/-- `V[x]` (R10, R13). -/
def readV (s : State) (x : Nibble) : Byte := s.v[x.toNat]'x.isLt

/-- `V[x] <- b` (R10, R13); no register is hardwired. -/
def writeV (x : Nibble) (b : Byte) (s : State) : State := { s with v := s.v.set x.toNat b x.isLt }

/-- `zext_16(nnn)` (R59). -/
def zextAddr (nnn : Addr12) : Word := nnn.setWidth 16

/-- `zext_16` of a byte (R10). -/
def zextByte (b : Byte) : Word := b.setWidth 16

/-- `zext_8` of a key code (R119). -/
def zextNibble (k : Nibble) : Byte := k.setWidth 8

/-- `PC <- t` (R10). -/
def jumpTo (t : Word) (s : State) : State := { s with pc := t }

/-- A skip: 2 more on `PC` where the condition holds (R75). -/
def skipIf (c : Bool) (s : State) : State := { s with pc := if c then s.pc + 2#16 else s.pc }

/-- `I <- a` (R10). -/
def writeI (a : Word) (s : State) : State := { s with idx := a }

/-- The low nibble of a register: the key number of R122 and the glyph number of R103 (D9). -/
def lowNibble (b : Byte) : Nibble := b.extractLsb' 0 4

/-- Whether key `k` is held in this step (R30, R116). -/
def keyHeld (s : State) (k : Nibble) : Bool := s.env.input.keysHeld.getLsbD k.toNat

/-- The address of glyph `g`: `0x050 + 5 * g` (R103). -/
def glyphAddr (g : Nibble) : Word := BitVec.ofNat 16 (Config.fontBase + Config.glyphBytes * g.toNat)

/-- `V[k], V[k+1], ...`: the `n` registers from number `k` up, as far as there are any (R105). -/
def regsFrom (v : Vector Byte 16) (k n : Nat) : List Byte := (v.toList.drop k).take n

/-- `V[k] <- b0, V[k+1] <- b1, ...` (R106), as far as there are registers. -/
def setRegsFrom (v : Vector Byte 16) : Nat → List Byte → Vector Byte 16
  | _, [] => v
  | k, b :: bs => if h : k < 16 then setRegsFrom (v.set k b h) (k + 1) bs else v

/-- The three decimal digits of a byte, hundreds first (R104). -/
def bcdDigits (a : Byte) : List Byte :=
  [BitVec.ofNat 8 (a.toNat / 100), BitVec.ofNat 8 (a.toNat / 10 % 10), BitVec.ofNat 8 (a.toNat % 10)]

/-- Store the bytes at `I`, `I + 1`, ... (R100, R104, R105); `I` stays (R107). -/
def storeAtI (bytes : List Byte) (s : State) : Except FaultSignal State :=
  match writeBlock s.mem s.idx.toNat bytes with
  | .ok m => .ok { s with mem := m }
  | .error e => .error e

/-- Read the `n` bytes at `I`, `I + 1`, ... (R100, R106, R112). -/
def readAtI (n : Nat) (s : State) : Except FaultSignal (List Byte) := readBlock s.mem s.idx.toNat n

end Sys2Proof.Machine
end

