-- ==== Sys2Proof/Machine/Flags.lean ====
section
/-! DEFINITION. The one flag of the machine, `V[15]`, and every flag computation of the spec (spec/10_state.md R18,
42_alu.md R85, 43_index_memory.md R102). -/

namespace Sys2Proof.Machine

/-- The flag as a register value: 1 or 0 (R18). -/
def flagByte (f : Bool) : Byte := if f then 1#8 else 0#8

/-- The number of the flag register, `V[15]` (R18). -/
abbrev flagReg : Nibble := 15#4

/-- Carry: the unwrapped sum exceeds 255 (R85, R92). -/
def carryFlag (a b : Byte) : Bool := Nat.blt 255 (a.toNat + b.toNat)

/-- notBorrow of `a - b`: minuend at least subtrahend (R85, R93, R95). -/
def notBorrowFlag (a b : Byte) : Bool := Nat.ble b.toNat a.toNat

/-- The bit a shift right discards, bit 0 (R85, R94). -/
def shrFlag (a : Byte) : Bool := a.getLsbD 0

/-- The bit a shift left discards, bit 7 (R85, R96). -/
def shlFlag (a : Byte) : Bool := a.getLsbD 7

/-- Overflow past the addressable space: the unwrapped sum exceeds `ADDR_LIMIT` (R102, D12). -/
def indexFlag (i : Word) (a : Byte) : Bool := Nat.blt Config.addrLimit (i.toNat + a.toNat)

/-- Write a result and then the flag: with `x = 15` the flag remains (R11, R99, D10). -/
def writeWithFlag (x : Nibble) (b : Byte) (f : Bool) (s : State) : State :=
  writeV flagReg (flagByte f) (writeV x b s)

end Sys2Proof.Machine
end

