-- ==== Sys2Proof/Machine/Alu.lean ====
section
/-! DEFINITION. Register load, arithmetic, logic, shift and random (spec/42_alu.md): `6xkk` `7xkk` `8xy0` to `8xy7` `8xyE`
`Cxkk`. None can raise (R85 to R99). -/

namespace Sys2Proof.Machine

/-- `6xkk` (R86). -/
def execLdImm (x : Nibble) (kk : Byte) (s : State) : Host.Outcome State Fault Refusal :=
  perform (.ldImm x kk) (writeV x kk) s

/-- `7xkk` (R87): modulo 256, no flag (R98, C1). -/
def execAddImm (x : Nibble) (kk : Byte) (s : State) : Host.Outcome State Fault Refusal :=
  perform (.addImm x kk) (fun t => writeV x (readV t x + kk) t) s

/-- `8xy0` (R88). -/
def execLdReg (x y : Nibble) (s : State) : Host.Outcome State Fault Refusal :=
  perform (.ldReg x y) (fun t => writeV x (readV t y) t) s

/-- `8xy1` (R89): no flag. -/
def execOrReg (x y : Nibble) (s : State) : Host.Outcome State Fault Refusal :=
  perform (.orReg x y) (fun t => writeV x (readV t x ||| readV t y) t) s

/-- `8xy2` (R90): no flag. -/
def execAndReg (x y : Nibble) (s : State) : Host.Outcome State Fault Refusal :=
  perform (.andReg x y) (fun t => writeV x (readV t x &&& readV t y) t) s

/-- `8xy3` (R91): no flag. -/
def execXorReg (x y : Nibble) (s : State) : Host.Outcome State Fault Refusal :=
  perform (.xorReg x y) (fun t => writeV x (readV t x ^^^ readV t y) t) s

/-- `8xy4` (R92). -/
def execAddReg (x y : Nibble) (s : State) : Host.Outcome State Fault Refusal :=
  perform (.addReg x y)
    (fun t => writeWithFlag x (readV t x + readV t y) (carryFlag (readV t x) (readV t y)) t) s

/-- `8xy5` (R93): `Vx - Vy`. -/
def execSub (x y : Nibble) (s : State) : Host.Outcome State Fault Refusal :=
  perform (.sub x y)
    (fun t => writeWithFlag x (readV t x - readV t y) (notBorrowFlag (readV t x) (readV t y)) t) s

/-- `8xy6` (R94): `V[y]` is not used. -/
def execShr (x y : Nibble) (s : State) : Host.Outcome State Fault Refusal :=
  perform (.shr x y) (fun t => writeWithFlag x (readV t x >>> 1) (shrFlag (readV t x)) t) s

/-- `8xy7` (R95): `Vy - Vx`. -/
def execSubn (x y : Nibble) (s : State) : Host.Outcome State Fault Refusal :=
  perform (.subn x y)
    (fun t => writeWithFlag x (readV t y - readV t x) (notBorrowFlag (readV t y) (readV t x)) t) s

/-- `8xyE` (R96): `V[y]` is not used. -/
def execShl (x y : Nibble) (s : State) : Host.Outcome State Fault Refusal :=
  perform (.shl x y) (fun t => writeWithFlag x (readV t x <<< 1) (shlFlag (readV t x)) t) s

/-- `Cxkk` (R97): the step input `rand_byte`, masked. -/
def execRnd (x : Nibble) (kk : Byte) (s : State) : Host.Outcome State Fault Refusal :=
  perform (.rnd x kk) (fun t => writeV x (t.env.input.randByte &&& kk) t) s

end Sys2Proof.Machine
end

