-- ==== Sys2Proof/Machine/ControlFlow.lean ====
section
/-! DEFINITION. Control transfer (spec/41_control_flow.md): `00EE` `1nnn` `2nnn` `3xkk` `4xkk` `5xy0` `9xy0` `Bnnn`. In a
rule `PC` already holds the address of the next sequential instruction (R67). -/

namespace Sys2Proof.Machine

/-- `00EE` (R76). -/
def execRet (z : Nibble) (s : State) : Host.Outcome State Fault Refusal :=
  performOrRaise (.ret z) popToPc s

/-- `1nnn` (R77). -/
def execJp (nnn : Addr12) (s : State) : Host.Outcome State Fault Refusal :=
  perform (.jp nnn) (jumpTo (zextAddr nnn)) s

/-- `2nnn` (R78): the pushed value is the advanced `PC`. -/
def execCall (nnn : Addr12) (s : State) : Host.Outcome State Fault Refusal :=
  performOrRaise (.call nnn) (fun t => (push t.pc t).map (jumpTo (zextAddr nnn))) s

/-- `3xkk` (R79). -/
def execSeImm (x : Nibble) (kk : Byte) (s : State) : Host.Outcome State Fault Refusal :=
  perform (.seImm x kk) (fun t => skipIf (readV t x == kk) t) s

/-- `4xkk` (R80). -/
def execSneImm (x : Nibble) (kk : Byte) (s : State) : Host.Outcome State Fault Refusal :=
  perform (.sneImm x kk) (fun t => skipIf (readV t x != kk) t) s

/-- `5xy0` (R81); bits 3:0 are ignored. -/
def execSeReg (x y n : Nibble) (s : State) : Host.Outcome State Fault Refusal :=
  perform (.seReg x y n) (fun t => skipIf (readV t x == readV t y) t) s

/-- `9xy0` (R82); bits 3:0 are ignored. -/
def execSneReg (x y n : Nibble) (s : State) : Host.Outcome State Fault Refusal :=
  perform (.sneReg x y n) (fun t => skipIf (readV t x != readV t y) t) s

/-- `Bnnn` (R83): the sum is not reduced to 12 bits. -/
def execJpV0 (nnn : Addr12) (s : State) : Host.Outcome State Fault Refusal :=
  perform (.jpV0 nnn) (fun t => jumpTo (zextAddr nnn + zextByte (readV t 0#4)) t) s

end Sys2Proof.Machine
end

