-- ==== Sys2Proof/Machine/Display.lean ====
section
/-! DEFINITION. Framebuffer (spec/44_display.md): `00E0` `Dxyn`. -/

namespace Sys2Proof.Machine

/-- `cx = V[x] mod 64` (R113, C2). -/
def anchorCol (b : Byte) : Nat := b.toNat % Config.fbCols

/-- `cy = V[y] mod 32` (R113, C2). -/
def anchorRow (b : Byte) : Nat := b.toNat % Config.fbRows

/-- `00E0` (R111). -/
def execCls (z : Nibble) (s : State) : Host.Outcome State Fault Refusal :=
  perform (.cls z) (fun t => { t with fb := blankScreen }) s

/-- Draw the sprite's bytes at the anchor and write the collision to `V[15]` (R112). -/
def drawSprite (cx cy : Nat) (bytes : List Byte) (t : State) : State :=
  let drawn := drawRows cx cy bytes (t.fb, false)
  writeV flagReg (flagByte drawn.2) { t with fb := drawn.1 }

/-- `Dxyn` (R112): all `n` bytes are read first, clipped or not (D11). -/
def execDrw (x y n : Nibble) (s : State) : Host.Outcome State Fault Refusal :=
  performOrRaise (.drw x y n)
    (fun t => (readAtI n.toNat t).map
      (fun bytes => drawSprite (anchorCol (readV t x)) (anchorRow (readV t y)) bytes t)) s

end Sys2Proof.Machine
end

