-- ==== Sys2Proof/Machine/IndexMemory.lean ====
section
/-! DEFINITION. Index register and memory (spec/43_index_memory.md): `Annn` `Fx1E` `Fx29` `Fx33` `Fx55` `Fx65`. -/

namespace Sys2Proof.Machine

/-- `Annn` (R101). -/
def execLdI (nnn : Addr12) (s : State) : Host.Outcome State Fault Refusal :=
  perform (.ldI nnn) (writeI (zextAddr nnn)) s

/-- `Fx1E` (R102): modulo 65536; the flag is written last. -/
def execAddI (x : Nibble) (s : State) : Host.Outcome State Fault Refusal :=
  perform (.addI x)
    (fun t => writeV flagReg (flagByte (indexFlag t.idx (readV t x))) (writeI (t.idx + zextByte (readV t x)) t)) s

/-- `Fx29` (R103): the glyph of the register's low nibble. -/
def execLdF (x : Nibble) (s : State) : Host.Outcome State Fault Refusal :=
  perform (.ldF x) (fun t => writeI (glyphAddr (lowNibble (readV t x))) t) s

/-- `Fx33` (R104). -/
def execLdB (x : Nibble) (s : State) : Host.Outcome State Fault Refusal :=
  performOrRaise (.ldB x) (fun t => storeAtI (bcdDigits (readV t x)) t) s

/-- `Fx55` (R105): registers 0 to `x` inclusive. -/
def execStRegs (x : Nibble) (s : State) : Host.Outcome State Fault Refusal :=
  performOrRaise (.stRegs x) (fun t => storeAtI (regsFrom t.v 0 (x.toNat + 1)) t) s

/-- `Fx65` (R106): registers 0 to `x` inclusive. -/
def execLdRegs (x : Nibble) (s : State) : Host.Outcome State Fault Refusal :=
  performOrRaise (.ldRegs x)
    (fun t => (readAtI (x.toNat + 1) t).map (fun bytes => { t with v := setRegsFrom t.v 0 bytes })) s

end Sys2Proof.Machine
end

