-- ==== Sys2Proof/Machine/TimersKeys.lean ====
section
/-! DEFINITION. Timers and keypad (spec/45_timers_keys.md): `Ex9E` `ExA1` `Fx07` `Fx0A` `Fx15` `Fx18`. The timer phase
of the step comes after each (R123). -/

namespace Sys2Proof.Machine

/-- `Ex9E` (R116). -/
def execSkp (x : Nibble) (s : State) : Host.Outcome State Fault Refusal :=
  perform (.skp x) (fun t => skipIf (keyHeld t (lowNibble (readV t x))) t) s

/-- `ExA1` (R117). -/
def execSknp (x : Nibble) (s : State) : Host.Outcome State Fault Refusal :=
  perform (.sknp x) (fun t => skipIf (!keyHeld t (lowNibble (readV t x))) t) s

/-- `Fx07` (R118). -/
def execLdVxDT (x : Nibble) (s : State) : Host.Outcome State Fault Refusal :=
  perform (.ldVxDT x) (fun t => writeV x t.dt t) s

/-- The rule of `Fx0A` (R119): with a key its code goes to `V[x]`; with none `PC` goes back to this instruction. -/
def awaitKey (x : Nibble) (t : State) : State :=
  match t.env.input.keyPress with
  | some k => writeV x (zextNibble k) t
  | none => { t with pc := t.pc - 2#16 }

/-- `Fx0A` (R119, D8). -/
def execLdVxK (x : Nibble) (s : State) : Host.Outcome State Fault Refusal :=
  perform (.ldVxK x) (awaitKey x) s

/-- `Fx15` (R120). -/
def execLdDTVx (x : Nibble) (s : State) : Host.Outcome State Fault Refusal :=
  perform (.ldDTVx x) (fun t => { t with dt := readV t x }) s

/-- `Fx18` (R121). -/
def execLdSTVx (x : Nibble) (s : State) : Host.Outcome State Fault Refusal :=
  perform (.ldSTVx x) (fun t => { t with st := readV t x }) s

end Sys2Proof.Machine
end

