-- ==== Sys2Proof/Machine/Cycle.lean ====
section
/-! DEFINITION. The step as one transition (spec/40_cycle.md R65 to R74). -/

namespace Sys2Proof.Machine

/-- Fetch, advance, dispatch and timers, from a state whose outputs are cleared and whose inputs are sampled (R65). -/
def runCycle (s : State) : Host.Outcome State Fault Refusal :=
  if fetchable s then
    match decodeWord (fetchWord s) with
    | none => .next (timerPhase (reportUnrecognized (fetchWord s) s))
    | some i =>
      match exec i s with
      | .next t => .next (finish t)
      | .fault f => .fault f
      | .refused r => .refused r
  else .next (raise { cause := .outOfBoundsFetch, dataAddr := none } 0#16 s)

/-- `Step(keys_held, key_press, rand_byte)` (R65). A faulted core is inert: only its outputs are cleared (R72, R73). -/
def stepWith (input : StepInput) (s : State) : Host.Outcome State Fault Refusal :=
  match s.status with
  | .running => runCycle (beginStep input s)
  | .faulted _ => .next (clearOutputs s)

/-- One step with the inputs the environment's side supplies (log 1); an inert step draws none. -/
def cycle (s : State) : Host.Outcome State Fault Refusal :=
  match s.status with
  | .running => stepWith (nextInput s.env) { s with env := s.env.drawn }
  | .faulted _ => .next (clearOutputs s)

end Sys2Proof.Machine
end

