-- ==== Sys2Proof/Machine/Step.lean ====
section
/-! DEFINITION. The step the host runs (R65), and an instruction placed where it fetches next. -/

namespace Sys2Proof.Machine

/-- One `Step`, its inputs drawn from the state (log 1). -/
def step (s : State) : Host.Outcome State Fault Refusal := cycle s

/-- `s` with the instruction whose bits are `w` stored at `PC` (log 9). -/
def State.withFetchWord (s : State) (nbits w : Nat) : State := placeWord (tableWord nbits w) s

end Sys2Proof.Machine
end

