-- ==== Sys2Proof/WellFormed.lean ====
section
/-! DEFINITION. The checks on what a program is written with. Every field of `Instr` has exactly the width of its
encoding field (R52) and every register number is legal (R63), so every term of `Instr` is a well-formed
instruction and no check on operands is left to make. Two checks remain: whether a term is the canonical spelling of
its instruction (R56, R62), and whether a program image fits (R149, R150). -/

namespace Sys2Proof

/-- The canonical spelling of R56: the bits that families 0x0, 0x5 and 0x9 ignore are 0. An alias is an instruction
all the same and executes identically. The `y` of the shifts belongs to the table's own pattern and is no alias. -/
def Instr.canonical : Instr → Bool
  | .cls z => z == 0
  | .ret z => z == 0
  | .seReg _ _ n => n == 0
  | .sneReg _ _ n => n == 0
  | .jp _ | .call _ | .seImm _ _ | .sneImm _ _ | .ldImm _ _ | .addImm _ _ | .ldReg _ _ | .orReg _ _
  | .andReg _ _ | .xorReg _ _ | .addReg _ _ | .sub _ _ | .shr _ _ | .subn _ _ | .shl _ _ | .ldI _
  | .jpV0 _ | .rnd _ _ | .drw _ _ _ | .skp _ | .sknp _ | .ldVxDT _ | .ldVxK _ | .ldDTVx _
  | .ldSTVx _ | .addI _ | .ldF _ | .ldB _ | .stRegs _ | .ldRegs _ => true

/-- Whether a program image fits between `PROG_BASE` and the top of memory (R149): at most 3584 bytes. -/
def imageFits (bytes : List Byte) : Bool :=
  decide (Config.progBase + bytes.length ≤ Config.memSize)

end Sys2Proof
end

