-- ==== Sys2Proof/Machine/Session.lean ====
section
/-! DEFINITION. What the environment does to the core besides `Step`: `Reset()` and `Load(bytes)` (spec/00_scope.md R7,
70_reset_and_hazards.md R145 to R151; log 10), and the cause numbers (60_exceptions.md R126). -/

namespace Sys2Proof.Machine

/-- `Reset()`, in any state (R145). The environment's supply of inputs is no state of the core and goes on (log 10). -/
def performReset (s : State) : State := { State.reset with env := s.env }

/-- The result of `Load` (R31, R149, R150). -/
inductive LoadResult where
  /-- `Ok`, with the state after the copy. -/
  | ok (s : State)
  /-- `ProgramTooLarge`: the core's state is as before the call. -/
  | programTooLarge
  /-- A call R149 leaves undefined. -/
  | refused (r : Refusal)
  deriving DecidableEq, Repr

/-- `Load(bytes)` (R149, R150): legal after a `Reset` and before the first `Step`, until one succeeds. -/
def load (bytes : List Byte) (s : State) : LoadResult :=
  if s.loadOpen then
    if imageFits bytes then
      .ok { s with mem := copyBytes s.mem Config.progBase bytes, loadOpen := false }
    else .programTooLarge
  else .refused .loadOutsideSession

/-- The cause number of a fatal fault (R126). -/
def faultCode : Fault → Nat
  | .outOfBoundsFetch => 2
  | .stackOverflow => 3
  | .stackUnderflow => 4
  | .outOfBoundsData => 5

/-- The cause number the environment sees after a step (R126): the latched fault's, 6 for an unrecognized word, 0 for
no condition. -/
def conditionCode (s : State) : Nat :=
  match s.status with
  | .faulted c => faultCode c
  | .running => if s.unrec.isSome then 6 else 0

/-- The cause number of a `Load` (R126): 1 for `ProgramTooLarge`, 0 for `Ok`; none for a call that is refused. -/
def loadCode : LoadResult → Option Nat
  | .ok _ => some 0
  | .programTooLarge => some 1
  | .refused _ => none

end Sys2Proof.Machine
end

