-- ==== Sys2Proof/Safety.lean ====
section
/-! DEFINITION. What counts as a safe run, and the terms claims are stated in: the parts of the state and their frames
(spec/10_state.md R27, R28), the condition under which each instruction raises (60_exceptions.md R125), and the
machine's invariant (R17, R33, R76, R127). -/

namespace Sys2Proof.Machine

/-! ### Safe runs (R73, R127, R160) -/

/-- `n` steps from `s`, the core running before and after each. A faulted core is never the end of a safe run, although
its steps answer next states (R73, R127; log 5). -/
def SafeFor : Nat → State → Prop
  | 0, s => s.status = .running
  | n + 1, s => s.status = .running ∧ ∃ t, step s = .next t ∧ SafeFor n t

/-- The spec's convention for the end of a program (R160, D26): the core runs and `PC` points at a jump to itself. -/
def Terminated (s : State) : Prop :=
  s.status = .running ∧ fetchable s = true ∧ fetchWord s = 0x1000#16 ||| s.pc

/-! ### Frames (R27, R28) -/

/-- The parts of the state. -/
inductive Part where
  | v | idx | stack | sp | pc | dt | st | fb | mem | ir | status | faultInfo | tone | unrec | env | loadOpen
  deriving DecidableEq, Repr

/-- `t` has the same part as `s`: memory by the byte, the framebuffer by the cell, the registers by their number. -/
def Part.Same : Part → State → State → Prop
  | .v, s, t => ∀ x, readV t x = readV s x
  | .idx, s, t => t.idx = s.idx
  | .stack, s, t => t.stack = s.stack
  | .sp, s, t => t.sp = s.sp
  | .pc, s, t => t.pc = s.pc
  | .dt, s, t => t.dt = s.dt
  | .st, s, t => t.st = s.st
  | .fb, s, t => ∀ r c, t.fb.get r c = s.fb.get r c
  | .mem, s, t => ∀ a, t.mem.get a = s.mem.get a
  | .ir, s, t => t.ir = s.ir
  | .status, s, t => t.status = s.status
  | .faultInfo, s, t => t.faultInfo = s.faultInfo
  | .tone, s, t => t.tone = s.tone
  | .unrec, s, t => t.unrec = s.unrec
  | .env, s, t => t.env = s.env
  | .loadOpen, s, t => t.loadOpen = s.loadOpen

/-- From `s` to `t`, every part outside `ps` is unchanged. -/
def ChangesOnly (ps : List Part) (s t : State) : Prop := ∀ p, p ∉ ps → p.Same s t

/-- From `s` to `t`, every general register outside `xs` is unchanged. -/
def KeepsRegsBut (xs : List Nibble) (s t : State) : Prop := ∀ r, r ∉ xs → readV t r = readV s r

/-- From `s` to `t`, every byte of memory outside the `n` bytes from `a` up is unchanged. -/
def KeepsBytesBut (a n : Nat) (s t : State) : Prop := ∀ b, ¬ (a ≤ b ∧ b < a + n) → t.mem.get b = s.mem.get b

/-- What an instruction may write when it completes, besides `PC` and `IR` (R28). -/
def writesOf : Instr → List Part
  | .cls _ => [.fb]
  | .ret _ => [.sp]
  | .call _ => [.stack, .sp]
  | .jp _ | .jpV0 _ | .seImm _ _ | .sneImm _ _ | .seReg _ _ _ | .sneReg _ _ _ | .skp _ | .sknp _ => []
  | .ldImm _ _ | .addImm _ _ | .ldReg _ _ | .orReg _ _ | .andReg _ _ | .xorReg _ _ | .addReg _ _ | .sub _ _
  | .shr _ _ | .subn _ _ | .shl _ _ | .rnd _ _ | .ldVxDT _ | .ldVxK _ | .ldRegs _ => [.v]
  | .ldI _ | .ldF _ => [.idx]
  | .addI _ => [.idx, .v]
  | .drw _ _ _ => [.fb, .v]
  | .ldDTVx _ => [.dt]
  | .ldSTVx _ => [.st]
  | .ldB _ | .stRegs _ => [.mem]

/-- The general registers an instruction may write (R27), the flag register among them. -/
def writesReg : Instr → Nibble → Bool
  | .ldImm x _, r | .addImm x _, r | .ldReg x _, r | .orReg x _, r | .andReg x _, r | .xorReg x _, r
  | .rnd x _, r | .ldVxDT x, r | .ldVxK x, r => r == x
  | .addReg x _, r | .sub x _, r | .shr x _, r | .subn x _, r | .shl x _, r => r == x || r == flagReg
  | .drw _ _ _, r | .addI _, r => r == flagReg
  | .ldRegs x, r => decide (r.toNat ≤ x.toNat)
  | .cls _, _ | .ret _, _ | .jp _, _ | .call _, _ | .seImm _ _, _ | .sneImm _ _, _ | .seReg _ _ _, _
  | .sneReg _ _ _, _ | .ldI _, _ | .jpV0 _, _ | .skp _, _ | .sknp _, _ | .ldDTVx _, _ | .ldSTVx _, _
  | .ldF _, _ | .ldB _, _ | .stRegs _, _ => false

/-- The seven instructions that write `V[15]` as a flag (R18). -/
def writesFlag : Instr → Bool
  | .addReg _ _ | .sub _ _ | .shr _ _ | .subn _ _ | .shl _ _ | .drw _ _ _ | .addI _ => true
  | .cls _ | .ret _ | .jp _ | .call _ | .seImm _ _ | .sneImm _ _ | .seReg _ _ _ | .sneReg _ _ _ | .ldImm _ _
  | .addImm _ _ | .ldReg _ _ | .orReg _ _ | .andReg _ _ | .xorReg _ _ | .ldI _ | .jpV0 _ | .rnd _ _ | .skp _
  | .sknp _ | .ldVxDT _ | .ldVxK _ | .ldDTVx _ | .ldSTVx _ | .ldF _ | .ldB _ | .stRegs _ | .ldRegs _ => false

/-- The four instructions that read an input of the step (R30). -/
def readsInput : Instr → Bool
  | .skp _ | .sknp _ | .ldVxK _ | .rnd _ _ => true
  | .cls _ | .ret _ | .jp _ | .call _ | .seImm _ _ | .sneImm _ _ | .seReg _ _ _ | .sneReg _ _ _ | .ldImm _ _
  | .addImm _ _ | .ldReg _ _ | .orReg _ _ | .andReg _ _ | .xorReg _ _ | .addReg _ _ | .sub _ _ | .shr _ _
  | .subn _ _ | .shl _ _ | .ldI _ | .jpV0 _ | .drw _ _ _ | .ldVxDT _ | .ldDTVx _ | .ldSTVx _ | .addI _
  | .ldF _ | .ldB _ | .stRegs _ | .ldRegs _ => false

/-! ### When an instruction raises (R125, R129, R130, R131) -/

/-- `n` bytes from `I` up: out of bounds if the last is at 4096 or above; the lowest such address is `I` or 4096. -/
def pastEnd (s : State) (n : Nat) : Option FaultSignal :=
  if 0 < n ∧ 4096 < s.idx.toNat + n then
    some ⟨.outOfBoundsData, some (if 4096 ≤ s.idx.toNat then s.idx else 0x1000#16)⟩
  else none

/-- The fault an instruction raises in `s`, with the first data address out of bounds; `none` where it completes. -/
def raises (i : Instr) (s : State) : Option FaultSignal :=
  match i with
  | .ret _ => if s.sp.val = 0 then some ⟨.stackUnderflow, none⟩ else none
  | .call _ => if s.sp.val = 16 then some ⟨.stackOverflow, none⟩ else none
  | .ldB _ => pastEnd s 3
  | .stRegs x | .ldRegs x => pastEnd s (x.toNat + 1)
  | .drw _ _ n => pastEnd s n.toNat
  | .cls _ | .jp _ | .seImm _ _ | .sneImm _ _ | .seReg _ _ _ | .ldImm _ _ | .addImm _ _ | .ldReg _ _ | .orReg _ _
  | .andReg _ _ | .xorReg _ _ | .addReg _ _ | .sub _ _ | .shr _ _ | .subn _ _ | .shl _ _ | .sneReg _ _ _
  | .ldI _ | .jpV0 _ | .rnd _ _ | .skp _ | .sknp _ | .ldVxDT _ | .ldVxK _ | .ldDTVx _ | .ldSTVx _ | .addI _
  | .ldF _ => none

/-! ### The invariant -/

/-- What a latched fault says of the state it was taken in (R126, R127): the address of the instruction at `PC`, the
outputs cleared, and the cause's own condition. The fetch could not read (R128), or the word at `PC` is an instruction that
raises that cause in this state, with the data address recorded (R129 to R131). -/
def FaultFits (c : Fault) (s : State) : Prop :=
  s.faultInfo.addr = s.pc ∧ s.tone = false ∧ s.unrec = none ∧
  match c with
  | .outOfBoundsFetch => fetchable s = false ∧ s.faultInfo.word = 0#16 ∧ s.faultInfo.dataAddr = none
  | .stackOverflow | .stackUnderflow | .outOfBoundsData =>
    fetchable s = true ∧ s.faultInfo.word = fetchWord s ∧
    ∃ i, decodeWord (fetchWord s) = some i ∧ raises i s = some { cause := c, dataAddr := s.faultInfo.dataAddr }

/-- The invariant of every reachable state: memory in canonical form, `PC` at most 0x10FE (R17), every stack slot at
most 0x1000 (R76), nothing recorded while running (R25), a latched fault that fits the state it stopped (R127), and no
place for a `Load` once faulted (R149). The canonical form is the model's own (log 7), and so is the record of the place
(log 10). -/
structure Inv (s : State) : Prop where
  mem_wf : s.mem.wf = true
  pc_le : s.pc.toNat ≤ 0x10FE
  stack_le : ∀ (k : Nat) (h : k < 16), (s.stack[k]).toNat ≤ 0x1000
  running_info : s.status = .running → s.faultInfo = { addr := 0, word := 0, dataAddr := none }
  faulted_info : ∀ c, s.status = .faulted c → FaultFits c s
  open_running : s.loadOpen = true → s.status = .running

end Sys2Proof.Machine
end

