-- ==== Sys2Proof/Certificates/Slice0/Obligations.lean ====
section
/-! DEFINITION. The statements for the provers, from the numbered rules of spec/. A statement whose content the spec
marks as its own decision (D<n>) or inference says so in its docstring; its basis is then 'derived'. -/

open Sys2Proof Sys2Proof.Machine

/-! ### Encoding -/

/-- R54, R62: decoding an encoded instruction gives it back, every operand at every value, ignored bits included. The
aliases rest on the spec's decision D6. -/
def Obligations.DecodeOfEncodeIsIdentity : Prop := ∀ i : Instr, decodeWord (encode i) = some i

/-- R54, R62 (D6): a recognized word is the encoding of what it decodes to; no bit of it is lost. -/
def Obligations.EncodeOfDecodeIsTheWord : Prop :=
  ∀ (w : Word) (i : Instr), decodeWord w = some i → encode i = w

/-- R51 and R54 (D6, C8): the decode procedure finds exactly the row of the opcode table whose mask and match value the
word has, and none where no row has them. -/
def Obligations.DecoderAgreesWithOpcodeTable : Prop :=
  ∀ w : Word, (decodeWord w).map Instr.mnemonic = (opcodeTable.find? (fun r => r.hits w)).map TableRow.mnemonic

/-- R55, R57 (D6): the unrecognized words are those whose secondary code is outside R55. -/
def Obligations.UnrecognizedWordsAreThoseOutsideTheCodes : Prop :=
  ∀ w : Word, decodeWord w = none ↔
    (w.toNat / 4096 = 0 ∧ w.toNat % 256 ∉ [0xE0, 0xEE]) ∨
    (w.toNat / 4096 = 8 ∧ w.toNat % 16 ∈ [0x8, 0x9, 0xA, 0xB, 0xC, 0xD, 0xF]) ∨
    (w.toNat / 4096 = 14 ∧ w.toNat % 256 ∉ [0x9E, 0xA1]) ∨
    (w.toNat / 4096 = 15 ∧ w.toNat % 256 ∉ [0x07, 0x0A, 0x15, 0x18, 0x1E, 0x29, 0x33, 0x55, 0x65])

/-- Words of the spec's own examples (R60, 41 to 45), one or more of every family, decode to what they stand for. -/
def Obligations.ExampleWordsDecode : Prop :=
  decodeWord 0x00E0 = some (.cls 0) ∧ decodeWord 0x0AEE = some (.ret 0xA) ∧
  decodeWord 0x2208 = some (.call 0x208) ∧ decodeWord 0x332A = some (.seImm 3 0x2A) ∧
  decodeWord 0x512F = some (.seReg 1 2 0xF) ∧ decodeWord 0x6005 = some (.ldImm 0 5) ∧
  decodeWord 0x8014 = some (.addReg 0 1) ∧ decodeWord 0xA2F0 = some (.ldI 0x2F0) ∧
  decodeWord 0xD125 = some (.drw 1 2 5) ∧ decodeWord 0xE2A1 = some (.sknp 2) ∧
  decodeWord 0xF50A = some (.ldVxK 5) ∧ decodeWord 0x801F = none

/-! ### The step -/

/-- R65, R68: where the word at `PC` decodes to `i`, a step of a running core is `exec i` from the state whose inputs
are sampled and outputs cleared, and then the timer phase (unless the instruction took a fatal fault). The inputs'
supply is the model's own (log 1). -/
def Obligations.StepRunsTheDecodedInstruction : Prop :=
  ∀ (s : State) (i : Instr), s.status = .running → fetchable s = true → decodeWord (fetchWord s) = some i →
    step s =
      match exec i (beginStep (nextInput s.env) { s with env := s.env.drawn }) with
      | .next t => .next (finish t)
      | .fault f => .fault f
      | .refused r => .refused r

/-- R66: the fetch reads `MEM[PC]` and `MEM[PC+1]`, high byte first, into `IR` where the step completes, whatever the
parity of `PC`. With `PC + 1` outside memory, that is `PC >= 4095`, the step is the fault `OutOfBoundsFetch`, before anything
is read or written: `PC` is recorded with the word 0, the outputs are cleared, and nothing else changes but the model's own
fields `env` and `loadOpen` (log 1, log 10). That the fault is precise and is a next state is D5 and the model's (log 5). -/
def Obligations.FetchReadsTwoBytesOrFaults : Prop :=
  ∀ s : State, s.status = .running → ∃ t, step s = .next t ∧
    (s.pc.toNat + 1 < 4096 → t.status ≠ .faulted .outOfBoundsFetch ∧
      (t.status = .running →
        t.ir.toNat = (s.mem.get s.pc.toNat).toNat * 256 + (s.mem.get (s.pc.toNat + 1)).toNat)) ∧
    (4096 ≤ s.pc.toNat + 1 → t.status = .faulted .outOfBoundsFetch ∧
      t.faultInfo = { addr := s.pc, word := 0, dataAddr := none } ∧ t.tone = false ∧ t.unrec = none ∧
      ChangesOnly [.status, .faultInfo, .tone, .unrec, .env, .loadOpen] s t)

/-- R71, R133 (the form of the report is D18): an unrecognized word is reported with its address; `IR` and `PC` advance,
the timer phase runs, and nothing else changes but the model's own input fields. -/
def Obligations.UnrecognizedWordIsReportedNoOp : Prop :=
  ∀ s : State, s.status = .running → fetchable s = true → decodeWord (fetchWord s) = none →
    ∃ t, step s = .next t ∧ t.unrec = some { word := fetchWord s, addr := s.pc } ∧ t.ir = fetchWord s ∧
      t.pc.toNat = s.pc.toNat + 2 ∧ t.dt.toNat = s.dt.toNat - 1 ∧ t.st.toNat = s.st.toNat - 1 ∧
      t.tone = decide (s.st = 1) ∧ ChangesOnly [.pc, .ir, .dt, .st, .tone, .unrec, .env, .loadOpen] s t

/-- R73, R137 (D5): a faulted core stays faulted, and changes nothing but its outputs, which any step leaves cleared, for any
number of steps; `Reset` makes it run. -/
def Obligations.FaultedCoreIsInertUntilReset : Prop :=
  ∀ (n : Nat) (s : State) (c : Fault), s.status = .faulted c →
    (∃ t, core.run n s = .next t ∧ t.status = .faulted c ∧ (0 < n → t.tone = false ∧ t.unrec = none) ∧
      ChangesOnly [.tone, .unrec] s t) ∧
    (performReset s).status = .running

/-- R74: a step always ends, in exactly one of three ways: completed, fatal fault, or ignored because already faulted;
in the model each is a next state (log 5). -/
def Obligations.EveryStepAnswersNext : Prop :=
  ∀ s : State, ∃ t, step s = .next t ∧
    ((s.status = .running ∧ t.status = .running) ∨ (∃ c, s.status = .running ∧ t.status = .faulted c) ∨
      (∃ c, s.status = .faulted c ∧ t.status = .faulted c))

/-- R69, R70, R123 (D5, D13): a completed step counts each timer down by one to 0, from the value `Fx15` or `Fx18` wrote
in the same step, and the tone is 1 exactly where the sound timer is 1 before its decrement. -/
def Obligations.TimersCountEveryCompletedStep : Prop :=
  ∀ s t : State, s.status = .running → step s = .next t → t.status = .running →
    t.dt.toNat = (match decodeWord (fetchWord s) with
      | some (.ldDTVx x) => readV s x
      | _ => s.dt).toNat - 1 ∧
    t.st.toNat = (match decodeWord (fetchWord s) with
      | some (.ldSTVx x) => readV s x
      | _ => s.st).toNat - 1 ∧
    t.tone = decide ((match decodeWord (fetchWord s) with
      | some (.ldSTVx x) => readV s x
      | _ => s.st) = 1)

/-! ### Whole-machine rules -/

/-- R27, R28, R68: an instruction that raises nothing completes, and writes `IR`, `PC`, the parts R28 gives it and the
registers R27 gives it, and nothing else. Both tables are the spec's inference from its rules. -/
def Obligations.EachInstructionWritesOnlyItsParts : Prop :=
  ∀ (i : Instr) (s : State), raises i s = none → ∃ t, exec i s = .next t ∧ t.ir = encode i ∧
    ChangesOnly (.pc :: .ir :: writesOf i) s t ∧ ∀ r, writesReg i r = false → readV t r = readV s r

/-- R108, R125 to R131 (D4, D5, D18): where an instruction raises, its whole effect is the entry into the fault: the
status, the recorded address, word and lowest data address, and cleared outputs; everything else is as before. And
whatever fatal fault a step takes, the failed fetch's among them, it is precise: the address recorded is that of the
instruction, the outputs are cleared, and nothing else changes but the model's own fields `env` and `loadOpen` (log 1,
log 10; that the fault is a next state is log 5). -/
def Obligations.FatalFaultsArePrecise : Prop :=
  (∀ (i : Instr) (s : State) (e : FaultSignal), raises i s = some e → ∃ t, exec i s = .next t ∧
    t.status = .faulted e.cause ∧ t.faultInfo = { addr := s.pc, word := encode i, dataAddr := e.dataAddr } ∧
    t.tone = false ∧ t.unrec = none ∧ ChangesOnly [.status, .faultInfo, .tone, .unrec] s t) ∧
  ∀ (s t : State) (c : Fault), s.status = .running → step s = .next t → t.status = .faulted c →
    t.faultInfo.addr = s.pc ∧ t.tone = false ∧ t.unrec = none ∧
    ChangesOnly [.status, .faultInfo, .tone, .unrec, .env, .loadOpen] s t

/-- R18, R11 (D10): each of the seven flag-writing instructions, when it completes, leaves 0 or 1 in `V[15]`, whatever
its destination. -/
def Obligations.FlagInstructionsLeaveZeroOrOne : Prop :=
  ∀ (i : Instr) (s : State), writesFlag i = true → raises i s = none →
    ∃ t, exec i s = .next t ∧ (readV t 15#4 = 0 ∨ readV t 15#4 = 1)

/-- R30 (D8, D17, D18): an instruction other than `Cxkk`, `Ex9E`, `ExA1`, `Fx0A` does the same whatever the inputs of the
step are. -/
def Obligations.InputsReachOnlyFourInstructions : Prop :=
  ∀ (i : Instr) (s : State) (e : Env), readsInput i = false →
    ∃ t, exec i s = .next t ∧ exec i { s with env := e } = .next { t with env := e }

/-- R118: no instruction reads `ST`. With another value in it each does the same, and `ST` keeps that value, except that
`Fx18` overwrites it. -/
def Obligations.SoundTimerIsReadByNoInstruction : Prop :=
  ∀ (i : Instr) (s : State) (b : Byte), ∃ t, exec i s = .next t ∧
    exec i { s with st := b } = .next (match i with
      | .ldSTVx _ => t
      | _ => { t with st := b })

/-- R32, R145: `Reset` in any state gives the reset state, but for the environment's supply of inputs (log 10); every
field there is at its reset value, and memory holds the font at 0x050 and 0 elsewhere. `I`, memory, the status
and the outputs rest on D5, D14, D18; the font's bytes are the parameter `Config.font`. -/
def Obligations.ResetLeavesTheSpecValues : Prop :=
  (∀ s, performReset s = { State.reset with env := s.env }) ∧
  (∀ x, readV State.reset x = 0) ∧ State.reset.idx = 0 ∧ (∀ (k : Nat) (h : k < 16), State.reset.stack[k] = 0) ∧
  State.reset.sp = 0 ∧ State.reset.pc = 0x200 ∧ State.reset.dt = 0 ∧ State.reset.st = 0 ∧
  (∀ r c, State.reset.fb.get r c = false) ∧ State.reset.ir = 0 ∧ State.reset.status = .running ∧
  State.reset.faultInfo = { addr := 0, word := 0, dataAddr := none } ∧ State.reset.tone = false ∧
  State.reset.unrec = none ∧ Config.font.length = 80 ∧
  (∀ (j : Nat) (h : j < Config.font.length), State.reset.mem.get (0x050 + j) = Config.font[j]) ∧
  ∀ a, ¬ (0x050 ≤ a ∧ a < 0x0A0) → State.reset.mem.get a = 0

/-- R17, R25, R33, R76 (D5, D14): the invariant holds after reset. Its clauses on the canonical form of memory and on the
place for a `Load` are the model's own (log 7, log 10). -/
def Obligations.ResetMeetsTheInvariant : Prop := Inv State.reset

/-- R17, R25, R33, R76, R126 to R131 (D4, D5): every step keeps the invariant: `PC` at most 0x10FE, stack slots at most
0x1000, nothing recorded while running, and a latched fault that fits the state it stopped: the fetch at `PC` cannot read, or
the word there is an instruction that raises the latched cause in that state, with the data address recorded. Its clauses
on the canonical form of memory and on the place for a `Load` are the model's own (log 7, log 10). -/
def Obligations.StepKeepsTheInvariant : Prop := ∀ s t : State, Inv s → step s = .next t → Inv t

/-! ### Memory and program load -/

/-- R41, R42 (D4): a byte stored inside memory is the byte read there afterwards, and every other byte reads as before;
outside memory both accesses signal `OutOfBoundsData` with the address, recorded modulo 65536 (16 bits are the model's
choice, log 8). That the canonical form is kept is about the model's representation (log 7). -/
def Obligations.ByteStoreChangesOneByte : Prop :=
  ∀ (m : Memory) (a : Nat) (b : Byte),
    (a < 4096 → ∃ m', memWrite m a b = .ok m' ∧ (m.wf = true → m'.wf = true) ∧
      ∀ a', a' < 4096 → memRead m' a' = .ok (if a' = a then b else m.get a')) ∧
    (4096 ≤ a → memWrite m a b = .error (outOfBounds a) ∧ memRead m a = .error (outOfBounds a))

/-- R149 (D19): where a `Load` is legal and the image fits, it is copied from 0x200 up, and nothing else changes but the
model's record that a load was made (log 10); and it keeps the invariant. -/
def Obligations.LoadCopiesTheImage : Prop :=
  ∀ (bytes : List Byte) (s : State), s.loadOpen = true → 0x200 + bytes.length ≤ 4096 →
    ∃ t, load bytes s = .ok t ∧ (∀ (k : Nat) (h : k < bytes.length), t.mem.get (0x200 + k) = bytes[k]) ∧
      KeepsBytesBut 0x200 bytes.length s t ∧ ChangesOnly [.mem, .loadOpen] s t ∧ t.loadOpen = false ∧ (Inv s → Inv t)

/-- R149, R150 (D19): a `Reset` makes a `Load` legal; an image that would run past the top of memory is `ProgramTooLarge`; and
a `Load` outside the place a session has for it is refused, which it is after any number of steps, at least one, of a
running core. The record of the place is the model's own (log 10). -/
def Obligations.LoadRejectsTooLargeOrLate : Prop :=
  ∀ (bytes : List Byte) (s : State),
    (performReset s).loadOpen = true ∧
    (s.loadOpen = true → 4096 < 0x200 + bytes.length → load bytes s = .programTooLarge) ∧
    (s.loadOpen = false → load bytes s = .refused .loadOutsideSession) ∧
    (s.status = .running → ∀ n, ∃ t, core.run (n + 1) s = .next t ∧ t.loadOpen = false ∧
      load bytes t = .refused .loadOutsideSession)

/-- R43, R48 (the spec's inference, D24): bytes that `Fx55` stores where the next fetch reads are the next instruction
word, the byte at the lower address high. -/
def Obligations.StoredCodeIsFetchedNext : Prop :=
  ∀ (s : State) (x k : Nibble), s.idx.toNat + x.toNat < 4096 → k.toNat < x.toNat →
    s.pc.toNat + 2 = s.idx.toNat + k.toNat →
    ∃ t, exec (.stRegs x) s = .next t ∧
      (fetchWord t).toNat = (readV s k).toNat * 256 + (readV s (k + 1)).toNat

/-! ### Control transfer -/

/-- R77: `1nnn` goes to `nnn`, any of the 4096, and changes nothing else but `IR`; only from the target 0xFFF can the next
fetch not read. -/
def Obligations.JumpGoesToTarget : Prop :=
  ∀ (w : Word) (s : State), w &&& 0xF000#16 = 0x1000#16 →
    decodeWord w = some (.jp (w.extractLsb' 0 12)) ∧
    ∃ t, exec (.jp (w.extractLsb' 0 12)) s = .next t ∧ t.pc.toNat = w.toNat % 4096 ∧ t.ir = w ∧
      (fetchable t = false ↔ w = 0x1FFF#16) ∧ ChangesOnly [.pc, .ir] s t

/-- R83: `Bnnn` goes to `nnn + V[0]`, not reduced to 12 bits, and changes nothing else but `IR`; from a sum of 4095 or more
the next fetch cannot read (D3). -/
def Obligations.JumpWithOffsetAddsV0 : Prop :=
  ∀ (w : Word) (s : State), w &&& 0xF000#16 = 0xB000#16 →
    decodeWord w = some (.jpV0 (w.extractLsb' 0 12)) ∧
    ∃ t, exec (.jpV0 (w.extractLsb' 0 12)) s = .next t ∧ t.pc.toNat = w.toNat % 4096 + (readV s 0#4).toNat ∧
      t.ir = w ∧ (fetchable t = false ↔ 4095 ≤ w.toNat % 4096 + (readV s 0#4).toNat) ∧ ChangesOnly [.pc, .ir] s t

/-- R79, R80: `3xkk` skips the next instruction where `V[x] = kk`, `4xkk` where it differs; nothing else changes but
`IR`. -/
def Obligations.SkipsComparingImmediate : Prop :=
  ∀ (w : Word) (s : State),
    (w &&& 0xF000#16 = 0x3000#16 →
      decodeWord w = some (.seImm (w.extractLsb' 8 4) (w.extractLsb' 0 8)) ∧
      ∃ t, exec (.seImm (w.extractLsb' 8 4) (w.extractLsb' 0 8)) s = .next t ∧ t.ir = w ∧
        t.pc = (if readV s (w.extractLsb' 8 4) = w.extractLsb' 0 8 then s.pc + 4 else s.pc + 2) ∧
        ChangesOnly [.pc, .ir] s t) ∧
    (w &&& 0xF000#16 = 0x4000#16 →
      decodeWord w = some (.sneImm (w.extractLsb' 8 4) (w.extractLsb' 0 8)) ∧
      ∃ t, exec (.sneImm (w.extractLsb' 8 4) (w.extractLsb' 0 8)) s = .next t ∧ t.ir = w ∧
        t.pc = (if readV s (w.extractLsb' 8 4) = w.extractLsb' 0 8 then s.pc + 2 else s.pc + 4) ∧
        ChangesOnly [.pc, .ir] s t)

/-- R81, R82 (the ignored low nibble is D6): `5xyN` skips where `V[x] = V[y]`, `9xyN` where they differ, for every `N`;
nothing else changes but `IR`. -/
def Obligations.SkipsComparingRegisters : Prop :=
  ∀ (x y n : Nibble) (s : State),
    (∃ t, exec (.seReg x y n) s = .next t ∧ t.ir = encode (.seReg x y n) ∧
      t.pc = (if readV s x = readV s y then s.pc + 4 else s.pc + 2) ∧ ChangesOnly [.pc, .ir] s t) ∧
    (∃ t, exec (.sneReg x y n) s = .next t ∧ t.ir = encode (.sneReg x y n) ∧
      t.pc = (if readV s x = readV s y then s.pc + 2 else s.pc + 4) ∧ ChangesOnly [.pc, .ir] s t)

/-- R78, R129 (the depth is D2, the count convention D21, the entry into the fault D5): with a free slot `2nnn` pushes
the address after it, counts it and goes to `nnn`; with 16 held it takes `StackOverflow`. -/
def Obligations.CallPushesReturnAddress : Prop :=
  ∀ (nnn : Addr12) (s : State),
    (∀ h : s.sp.val < 16, ∃ t, exec (.call nnn) s = .next t ∧ t.pc.toNat = nnn.toNat ∧
      t.sp.val = s.sp.val + 1 ∧ t.stack[s.sp.val] = s.pc + 2 ∧
      (∀ (k : Nat) (hk : k < 16), k ≠ s.sp.val → t.stack[k] = s.stack[k]) ∧
      ChangesOnly [.pc, .ir, .sp, .stack] s t) ∧
    (s.sp.val = 16 → ∃ t, exec (.call nnn) s = .next t ∧ t.status = .faulted .stackOverflow ∧
      ChangesOnly [.status, .faultInfo, .tone, .unrec] s t)

/-- R76, R130 (D21, D5; the ignored nibble is D6): with an address held `00EE` takes the newest into `PC` and uncounts
it, the slot keeping its value; with none held it takes `StackUnderflow`. -/
def Obligations.ReturnPopsReturnAddress : Prop :=
  ∀ (z : Nibble) (s : State),
    (∀ (k : Nat) (hk : k < 16), s.sp.val = k + 1 → ∃ t, exec (.ret z) s = .next t ∧ t.pc = s.stack[k] ∧
      t.sp.val = k ∧ ChangesOnly [.pc, .ir, .sp] s t) ∧
    (s.sp.val = 0 → ∃ t, exec (.ret z) s = .next t ∧ t.status = .faulted .stackUnderflow ∧
      ChangesOnly [.status, .faultInfo, .tone, .unrec] s t)

/-- R76, R78 (D21): a call and the return that meets its entry come back to the address after the call, with the stack
pointer at its depth before the call. -/
def Obligations.CallThenReturnComesBack : Prop :=
  ∀ (nnn : Addr12) (z : Nibble) (s : State), s.sp.val < 16 →
    ∃ t u, exec (.call nnn) s = .next t ∧ exec (.ret z) t = .next u ∧ u.pc = s.pc + 2 ∧ u.sp = s.sp ∧
      ChangesOnly [.pc, .ir, .stack] s u

/-! ### Load, arithmetic, logic, shift, random -/

/-- R86: `6xkk` writes `kk` to `V[x]`, `V[15]` like any other, and nothing else but `PC` and `IR`. -/
def Obligations.LoadImmediateWritesTheByte : Prop :=
  ∀ (w : Word) (s : State), w &&& 0xF000#16 = 0x6000#16 →
    decodeWord w = some (.ldImm (w.extractLsb' 8 4) (w.extractLsb' 0 8)) ∧
    ∃ t, exec (.ldImm (w.extractLsb' 8 4) (w.extractLsb' 0 8)) s = .next t ∧
      readV t (w.extractLsb' 8 4) = w.extractLsb' 0 8 ∧ KeepsRegsBut [w.extractLsb' 8 4] s t ∧
      t.pc = s.pc + 2 ∧ t.ir = w ∧ ChangesOnly [.v, .pc, .ir] s t

/-- R87: `7xkk` adds `kk` to `V[x]` modulo 256 and writes no flag; nothing else changes but `PC` and `IR`. -/
def Obligations.AddImmediateWrapsWithoutFlag : Prop :=
  ∀ (w : Word) (s : State), w &&& 0xF000#16 = 0x7000#16 →
    decodeWord w = some (.addImm (w.extractLsb' 8 4) (w.extractLsb' 0 8)) ∧
    ∃ t, exec (.addImm (w.extractLsb' 8 4) (w.extractLsb' 0 8)) s = .next t ∧
      (readV t (w.extractLsb' 8 4)).toNat = ((readV s (w.extractLsb' 8 4)).toNat + w.toNat % 256) % 256 ∧
      KeepsRegsBut [w.extractLsb' 8 4] s t ∧ t.pc = s.pc + 2 ∧ t.ir = w ∧ ChangesOnly [.v, .pc, .ir] s t

/-- R88: `8xy0` copies `V[y]` to `V[x]`; nothing else changes but `PC` and `IR`. -/
def Obligations.CopyRegisterCopies : Prop :=
  ∀ (w : Word) (s : State), w &&& 0xF00F#16 = 0x8000#16 →
    decodeWord w = some (.ldReg (w.extractLsb' 8 4) (w.extractLsb' 4 4)) ∧
    ∃ t, exec (.ldReg (w.extractLsb' 8 4) (w.extractLsb' 4 4)) s = .next t ∧
      readV t (w.extractLsb' 8 4) = readV s (w.extractLsb' 4 4) ∧ KeepsRegsBut [w.extractLsb' 8 4] s t ∧
      t.pc = s.pc + 2 ∧ t.ir = w ∧ ChangesOnly [.v, .pc, .ir] s t

/-- R89, R90, R91: `8xy1`, `8xy2`, `8xy3` combine the old `V[x]` and `V[y]` bit by bit into `V[x]` and write no flag;
nothing else changes but `PC` and `IR`. -/
def Obligations.LogicCombinesBitByBit : Prop :=
  ∀ (w : Word) (s : State),
    (w &&& 0xF00F#16 = 0x8001#16 →
      decodeWord w = some (.orReg (w.extractLsb' 8 4) (w.extractLsb' 4 4)) ∧
      ∃ t, exec (.orReg (w.extractLsb' 8 4) (w.extractLsb' 4 4)) s = .next t ∧
        (∀ b : Nat, (readV t (w.extractLsb' 8 4)).getLsbD b =
          ((readV s (w.extractLsb' 8 4)).getLsbD b || (readV s (w.extractLsb' 4 4)).getLsbD b)) ∧
        KeepsRegsBut [w.extractLsb' 8 4] s t ∧ t.pc = s.pc + 2 ∧ t.ir = w ∧ ChangesOnly [.v, .pc, .ir] s t) ∧
    (w &&& 0xF00F#16 = 0x8002#16 →
      decodeWord w = some (.andReg (w.extractLsb' 8 4) (w.extractLsb' 4 4)) ∧
      ∃ t, exec (.andReg (w.extractLsb' 8 4) (w.extractLsb' 4 4)) s = .next t ∧
        (∀ b : Nat, (readV t (w.extractLsb' 8 4)).getLsbD b =
          ((readV s (w.extractLsb' 8 4)).getLsbD b && (readV s (w.extractLsb' 4 4)).getLsbD b)) ∧
        KeepsRegsBut [w.extractLsb' 8 4] s t ∧ t.pc = s.pc + 2 ∧ t.ir = w ∧ ChangesOnly [.v, .pc, .ir] s t) ∧
    (w &&& 0xF00F#16 = 0x8003#16 →
      decodeWord w = some (.xorReg (w.extractLsb' 8 4) (w.extractLsb' 4 4)) ∧
      ∃ t, exec (.xorReg (w.extractLsb' 8 4) (w.extractLsb' 4 4)) s = .next t ∧
        (∀ b : Nat, (readV t (w.extractLsb' 8 4)).getLsbD b =
          ((readV s (w.extractLsb' 8 4)).getLsbD b ^^ (readV s (w.extractLsb' 4 4)).getLsbD b)) ∧
        KeepsRegsBut [w.extractLsb' 8 4] s t ∧ t.pc = s.pc + 2 ∧ t.ir = w ∧ ChangesOnly [.v, .pc, .ir] s t)

/-- R92, R99 (with `x = 15` the flag remains: D10): `8xy4` writes the sum modulo 256 and the carry of the unwrapped sum;
nothing else changes but `PC` and `IR`. -/
def Obligations.AddRegistersSetsCarry : Prop :=
  ∀ (x y : Nibble) (s : State), ∃ t, exec (.addReg x y) s = .next t ∧
    (x ≠ 15#4 → (readV t x).toNat = ((readV s x).toNat + (readV s y).toNat) % 256) ∧
    readV t 15#4 = (if 255 < (readV s x).toNat + (readV s y).toNat then 1 else 0) ∧
    KeepsRegsBut [x, 15#4] s t ∧ t.pc = s.pc + 2 ∧ t.ir = encode (.addReg x y) ∧ ChangesOnly [.v, .pc, .ir] s t

/-- R93, R95, R99 (with `x = 15` the flag remains: D10): `8xy5` writes `V[x] - V[y]`, `8xy7` writes `V[y] - V[x]`, modulo
256, and the flag is 1 exactly where no borrow occurs; nothing else changes but `PC` and `IR`. -/
def Obligations.SubtractSetsNotBorrow : Prop :=
  ∀ (x y : Nibble) (s : State),
    (∃ t, exec (.sub x y) s = .next t ∧
      (x ≠ 15#4 → (readV t x).toNat = ((readV s x).toNat + 256 - (readV s y).toNat) % 256) ∧
      readV t 15#4 = (if (readV s y).toNat ≤ (readV s x).toNat then 1 else 0) ∧
      KeepsRegsBut [x, 15#4] s t ∧ t.pc = s.pc + 2 ∧ t.ir = encode (.sub x y) ∧ ChangesOnly [.v, .pc, .ir] s t) ∧
    (∃ t, exec (.subn x y) s = .next t ∧
      (x ≠ 15#4 → (readV t x).toNat = ((readV s y).toNat + 256 - (readV s x).toNat) % 256) ∧
      readV t 15#4 = (if (readV s x).toNat ≤ (readV s y).toNat then 1 else 0) ∧
      KeepsRegsBut [x, 15#4] s t ∧ t.pc = s.pc + 2 ∧ t.ir = encode (.subn x y) ∧ ChangesOnly [.v, .pc, .ir] s t)

/-- R94, R96, R99 (with `x = 15` the flag remains: D10): `8xy6` halves `V[x]` and `8xyE` doubles it modulo 256, whatever
`y` is, and the flag is the bit lost, taken before the shift; nothing else changes but `PC` and `IR`. -/
def Obligations.ShiftsKeepTheLostBit : Prop :=
  ∀ (x y : Nibble) (s : State),
    (∃ t, exec (.shr x y) s = .next t ∧ (x ≠ 15#4 → (readV t x).toNat = (readV s x).toNat / 2) ∧
      (readV t 15#4).toNat = (readV s x).toNat % 2 ∧
      KeepsRegsBut [x, 15#4] s t ∧ t.pc = s.pc + 2 ∧ t.ir = encode (.shr x y) ∧ ChangesOnly [.v, .pc, .ir] s t) ∧
    (∃ t, exec (.shl x y) s = .next t ∧ (x ≠ 15#4 → (readV t x).toNat = 2 * (readV s x).toNat % 256) ∧
      (readV t 15#4).toNat = (readV s x).toNat / 128 ∧
      KeepsRegsBut [x, 15#4] s t ∧ t.pc = s.pc + 2 ∧ t.ir = encode (.shl x y) ∧ ChangesOnly [.v, .pc, .ir] s t)

/-- R97 (the input as a free value is D17): `Cxkk` writes the step's random byte masked with `kk`, for every value of
the input; nothing else changes but `PC` and `IR`. -/
def Obligations.RandomByteIsMasked : Prop :=
  ∀ (x : Nibble) (kk : Byte) (s : State), ∃ t, exec (.rnd x kk) s = .next t ∧
    (∀ b : Nat, (readV t x).getLsbD b = (s.env.input.randByte.getLsbD b && kk.getLsbD b)) ∧
    KeepsRegsBut [x] s t ∧ t.pc = s.pc + 2 ∧ t.ir = encode (.rnd x kk) ∧ ChangesOnly [.v, .pc, .ir] s t

/-! ### Index register and memory -/

/-- R101: `Annn` writes `nnn` to `I`, any of the 4096; nothing else changes but `PC` and `IR`. -/
def Obligations.LoadIndexWritesTheAddress : Prop :=
  ∀ (w : Word) (s : State), w &&& 0xF000#16 = 0xA000#16 →
    decodeWord w = some (.ldI (w.extractLsb' 0 12)) ∧
    ∃ t, exec (.ldI (w.extractLsb' 0 12)) s = .next t ∧ t.idx.toNat = w.toNat % 4096 ∧
      t.pc = s.pc + 2 ∧ t.ir = w ∧ ChangesOnly [.idx, .pc, .ir] s t

/-- R102 (D12; with `x = 15` D10): `Fx1E` adds `V[x]` to `I` modulo 65536, and the flag says whether the unwrapped sum
exceeds 0x0FFF; nothing else changes but `PC` and `IR`. -/
def Obligations.AddIndexFlagsOverflow : Prop :=
  ∀ (x : Nibble) (s : State), ∃ t, exec (.addI x) s = .next t ∧
    t.idx.toNat = (s.idx.toNat + (readV s x).toNat) % 65536 ∧
    readV t 15#4 = (if 0x0FFF < s.idx.toNat + (readV s x).toNat then 1 else 0) ∧
    KeepsRegsBut [15#4] s t ∧ t.pc = s.pc + 2 ∧ t.ir = encode (.addI x) ∧ ChangesOnly [.idx, .v, .pc, .ir] s t

/-- R103 (the low nibble is D9): `Fx29` points `I` at the glyph of the low nibble of `V[x]`, `0x050 + 5 * g`; nothing
else changes but `PC` and `IR`. -/
def Obligations.GlyphAddressIsFiveTimesTheNibble : Prop :=
  ∀ (x : Nibble) (s : State), ∃ t, exec (.ldF x) s = .next t ∧
    t.idx.toNat = 0x050 + 5 * ((readV s x).toNat % 16) ∧
    t.pc = s.pc + 2 ∧ t.ir = encode (.ldF x) ∧ ChangesOnly [.idx, .pc, .ir] s t

/-- R104, R107 (bounds D4, `I` kept D22): with `I + 2` inside memory `Fx33` stores the three decimal digits of `V[x]`,
hundreds first, at `I`, `I + 1`, `I + 2`; every other byte reads as before and nothing else changes but `PC` and `IR`. -/
def Obligations.BcdStoresThreeDigits : Prop :=
  ∀ (x : Nibble) (s : State), s.idx.toNat + 2 < 4096 → ∃ t, exec (.ldB x) s = .next t ∧
    (t.mem.get s.idx.toNat).toNat * 100 + (t.mem.get (s.idx.toNat + 1)).toNat * 10 +
      (t.mem.get (s.idx.toNat + 2)).toNat = (readV s x).toNat ∧
    (t.mem.get (s.idx.toNat + 1)).toNat ≤ 9 ∧ (t.mem.get (s.idx.toNat + 2)).toNat ≤ 9 ∧
    KeepsBytesBut s.idx.toNat 3 s t ∧ t.pc = s.pc + 2 ∧ t.ir = encode (.ldB x) ∧
    ChangesOnly [.mem, .pc, .ir] s t

/-- R105, R107 (bounds D4, `I` kept D22): with `I + x` inside memory `Fx55` stores `V[k]` at `I + k` for every `k` up to
`x`; every other byte reads as before and nothing else changes but `PC` and `IR`. -/
def Obligations.StoreRegistersInOrder : Prop :=
  ∀ (x : Nibble) (s : State), s.idx.toNat + x.toNat < 4096 → ∃ t, exec (.stRegs x) s = .next t ∧
    (∀ k : Nibble, k.toNat ≤ x.toNat → t.mem.get (s.idx.toNat + k.toNat) = readV s k) ∧
    KeepsBytesBut s.idx.toNat (x.toNat + 1) s t ∧ t.pc = s.pc + 2 ∧ t.ir = encode (.stRegs x) ∧
    ChangesOnly [.mem, .pc, .ir] s t

/-- R106, R107 (bounds D4, `I` kept D22): with `I + x` inside memory `Fx65` loads `V[k]` from `I + k` for every `k` up
to `x`; the registers above keep theirs and nothing else changes but `PC` and `IR`. -/
def Obligations.LoadRegistersInOrder : Prop :=
  ∀ (x : Nibble) (s : State), s.idx.toNat + x.toNat < 4096 → ∃ t, exec (.ldRegs x) s = .next t ∧
    (∀ k : Nibble, k.toNat ≤ x.toNat → readV t k = s.mem.get (s.idx.toNat + k.toNat)) ∧
    (∀ k : Nibble, x.toNat < k.toNat → readV t k = readV s k) ∧
    t.pc = s.pc + 2 ∧ t.ir = encode (.ldRegs x) ∧ ChangesOnly [.v, .pc, .ir] s t

/-- The source's round trip (95_test_vectors.md L1-2; bounds D4, `I` kept D22): registers stored by `Fx55`, then changed
in any way, come back by `Fx65` from the same `I`. -/
def Obligations.StoreThenLoadRestoresRegisters : Prop :=
  ∀ (x : Nibble) (s : State) (v' : Vector Byte 16), s.idx.toNat + x.toNat < 4096 →
    ∃ t u, exec (.stRegs x) s = .next t ∧ exec (.ldRegs x) { t with v := v' } = .next u ∧
      (∀ k : Nibble, k.toNat ≤ x.toNat → readV u k = readV s k) ∧ u.idx = s.idx

/-! ### Framebuffer -/

/-- R111 (the ignored nibble is D6): `00E0` turns every cell off, twice the same as once, and changes nothing else but
`PC` and `IR`; `V[15]` stays. -/
def Obligations.ClearTurnsEveryCellOff : Prop :=
  ∀ (z : Nibble) (s : State), ∃ t, exec (.cls z) s = .next t ∧ (∀ r c, t.fb.get r c = false) ∧
    t.pc = s.pc + 2 ∧ t.ir = encode (.cls z) ∧ ChangesOnly [.fb, .pc, .ir] s t ∧
    ∃ u, exec (.cls z) t = .next u ∧ u.fb = t.fb

/-- The sprite of `Dxyn` in `s` has a 1 bit for the cell in row `r`, column `c` (R113, R114): bit `7 - j` of the byte at
`I + i` stands for row `cy + i`, column `cx + j`, where `cx = V[x] mod 64` and `cy = V[y] mod 32`. -/
def Sys2Proof.spriteBit (x y n : Nibble) (s : State) (r c : Nat) : Bool :=
  let cx := (readV s x).toNat % 64
  let cy := (readV s y).toNat % 32
  decide (cy ≤ r ∧ r < cy + n.toNat ∧ cx ≤ c ∧ c < cx + 8) &&
    (s.mem.get (s.idx.toNat + (r - cy))).getLsbD (7 - (c - cx))

/-- R112, R113, R114 (D11, D22; with `x` or `y` 15 D10): with the sprite inside memory (or no row), `Dxyn` XORs exactly
the sprite's cells on the grid; the flag is 1 exactly where some cell was on and is turned off; nothing else changes but
`PC` and `IR`. -/
def Obligations.DrawXorsExactlyTheSprite : Prop :=
  ∀ (x y n : Nibble) (s : State), (n = 0 ∨ s.idx.toNat + n.toNat ≤ 4096) →
    ∃ t, exec (.drw x y n) s = .next t ∧
      (∀ r c, r < 32 → c < 64 → t.fb.get r c = (s.fb.get r c ^^ spriteBit x y n s r c)) ∧
      ((readV t 15#4 = 1 ∧ ∃ r c, r < 32 ∧ c < 64 ∧ s.fb.get r c = true ∧ spriteBit x y n s r c = true) ∨
        (readV t 15#4 = 0 ∧ ∀ r c, r < 32 → c < 64 → ¬ (s.fb.get r c = true ∧ spriteBit x y n s r c = true))) ∧
      KeepsRegsBut [15#4] s t ∧ t.pc = s.pc + 2 ∧ t.ir = encode (.drw x y n) ∧
      ChangesOnly [.fb, .v, .pc, .ir] s t

/-- R112 (D11, D10): a sprite drawn a second time at the same place restores the framebuffer, and the second draw collides
exactly where a 1 bit of the sprite lies on a grid cell that was off before the first. The place is the same unless a
coordinate is in `V[15]`, and there it is the same where the first draw's flag leaves that coordinate as it was.
The collision clause is the model's reading of the rule's Operation (log 14, DEDUCED): R112's corner case words it as "if
the sprite has any unclipped 1 bit", which holds only for a screen that is off under the sprite. -/
def Obligations.DrawTwiceRestoresTheScreen : Prop :=
  ∀ (x y n : Nibble) (s : State), (n = 0 ∨ s.idx.toNat + n.toNat ≤ 4096) →
    ∃ t u, exec (.drw x y n) s = .next t ∧ exec (.drw x y n) t = .next u ∧
      (x ≠ 15#4 → readV t x = readV s x) ∧ (y ≠ 15#4 → readV t y = readV s y) ∧
      ((readV t x).toNat % 64 = (readV s x).toNat % 64 → (readV t y).toNat % 32 = (readV s y).toNat % 32 →
        u.fb = s.fb ∧
        (readV u 15#4 = 1 ↔ ∃ r c, r < 32 ∧ c < 64 ∧ spriteBit x y n s r c = true ∧ s.fb.get r c = false))

/-! ### Timers and keypad -/

/-- R116, R117, R122 (the low nibble is D9): `Ex9E` skips where the key of the low nibble of `V[x]` is held in this
step, `ExA1` where it is not; nothing else changes but `IR`. -/
def Obligations.SkipsOnKeys : Prop :=
  ∀ (x : Nibble) (s : State),
    (∃ t, exec (.skp x) s = .next t ∧ t.ir = encode (.skp x) ∧
      t.pc = (if s.env.input.keysHeld.getLsbD ((readV s x).toNat % 16) then s.pc + 4 else s.pc + 2) ∧
      ChangesOnly [.pc, .ir] s t) ∧
    (∃ t, exec (.sknp x) s = .next t ∧ t.ir = encode (.sknp x) ∧
      t.pc = (if s.env.input.keysHeld.getLsbD ((readV s x).toNat % 16) then s.pc + 2 else s.pc + 4) ∧
      ChangesOnly [.pc, .ir] s t)

/-- R118, R120, R121: `Fx07` reads the delay timer before this step's decrement; `Fx15` and `Fx18` write the timers, and
the timer phase of the same step then decrements the new value and takes the tone from it. -/
def Obligations.TimerInstructionsReadAndWrite : Prop :=
  ∀ (w : Word) (s : State), s.status = .running →
    (w &&& 0xF0FF#16 = 0xF007#16 → decodeWord w = some (.ldVxDT (w.extractLsb' 8 4)) ∧
      ∃ t, exec (.ldVxDT (w.extractLsb' 8 4)) s = .next t ∧ readV (finish t) (w.extractLsb' 8 4) = s.dt ∧
        (finish t).dt.toNat = s.dt.toNat - 1 ∧ KeepsRegsBut [w.extractLsb' 8 4] s t ∧ t.pc = s.pc + 2 ∧
        t.ir = w ∧ ChangesOnly [.v, .pc, .ir] s t) ∧
    (w &&& 0xF0FF#16 = 0xF015#16 → decodeWord w = some (.ldDTVx (w.extractLsb' 8 4)) ∧
      ∃ t, exec (.ldDTVx (w.extractLsb' 8 4)) s = .next t ∧ t.dt = readV s (w.extractLsb' 8 4) ∧
        (finish t).dt.toNat = (readV s (w.extractLsb' 8 4)).toNat - 1 ∧ t.pc = s.pc + 2 ∧ t.ir = w ∧
        ChangesOnly [.dt, .pc, .ir] s t) ∧
    (w &&& 0xF0FF#16 = 0xF018#16 → decodeWord w = some (.ldSTVx (w.extractLsb' 8 4)) ∧
      ∃ t, exec (.ldSTVx (w.extractLsb' 8 4)) s = .next t ∧ t.st = readV s (w.extractLsb' 8 4) ∧
        (finish t).st.toNat = (readV s (w.extractLsb' 8 4)).toNat - 1 ∧
        (finish t).tone = decide (readV s (w.extractLsb' 8 4) = 1) ∧ t.pc = s.pc + 2 ∧ t.ir = w ∧
        ChangesOnly [.st, .pc, .ir] s t)

/-- R119, R124 (D8): with a key `Fx0A` writes its code to `V[x]` and goes on; with none it comes back to itself, and
nothing but `IR` changes. -/
def Obligations.KeyWaitTakesTheKeyOrRepeats : Prop :=
  ∀ (x : Nibble) (s : State),
    (∀ k, s.env.input.keyPress = some k → ∃ t, exec (.ldVxK x) s = .next t ∧ (readV t x).toNat = k.toNat ∧
      KeepsRegsBut [x] s t ∧ t.pc = s.pc + 2 ∧ t.ir = encode (.ldVxK x) ∧ ChangesOnly [.v, .pc, .ir] s t) ∧
    (s.env.input.keyPress = none → ∃ t, exec (.ldVxK x) s = .next t ∧ t.pc = s.pc ∧ t.ir = encode (.ldVxK x) ∧
      ChangesOnly [.ir] s t)

/-- R119, R124 (D8; the supplied inputs are the model's script, log 1): over any number of steps in which no key comes,
a machine at an `Fx0A` stays at it, running, with the timers counting down and nothing else of the program's state
changed. -/
def Obligations.KeyWaitHoldsWhileNoKeyComes : Prop :=
  ∀ (x : Nibble) (inputs rest : List StepInput) (s : State), s.status = .running → fetchable s = true →
    decodeWord (fetchWord s) = some (.ldVxK x) → s.env.script = inputs ++ rest →
    (∀ i ∈ inputs, i.keyPress = none) →
    ∃ t, core.run inputs.length s = .next t ∧ t.status = .running ∧ t.pc = s.pc ∧ t.env.script = rest ∧
      t.dt.toNat = s.dt.toNat - inputs.length ∧ t.st.toNat = s.st.toNat - inputs.length ∧
      ChangesOnly [.dt, .st, .ir, .tone, .unrec, .env, .loadOpen] s t

/-- R77, R160 (the convention is D26): a machine at a jump to itself stays there, running, for any number of steps, and
only its timers run down. -/
def Obligations.SelfJumpStaysTerminated : Prop :=
  ∀ (n : Nat) (s : State), Terminated s →
    SafeFor n s ∧ ∃ t, core.run n s = .next t ∧ Terminated t ∧ t.dt.toNat = s.dt.toNat - n ∧
      t.st.toNat = s.st.toNat - n ∧ ChangesOnly [.dt, .st, .ir, .tone, .unrec, .env, .loadOpen] s t
end

