-- ==== Sys2Proof/Laws/Decode.lean ====
section
/-! SUPPORT. The fields of an assembled word, and a word assembled from its fields (R52, R53). -/

namespace Sys2Proof

theorem fieldOp_formatA (op : Nibble) (nnn : Addr12) : fieldOp (formatA op nnn) = op := by
  apply BitVec.eq_of_getLsbD_eq
  intro i hi
  simp [fieldOp, formatA]
  interval_cases i <;> simp

theorem fieldNNN_formatA (op : Nibble) (nnn : Addr12) : fieldNNN (formatA op nnn) = nnn := by
  apply BitVec.eq_of_getLsbD_eq
  intro i hi
  simp [fieldNNN, formatA]
  interval_cases i <;> simp

theorem fieldOp_formatXK (op x : Nibble) (kk : Byte) : fieldOp (formatXK op x kk) = op := by
  apply BitVec.eq_of_getLsbD_eq
  intro i hi
  simp [fieldOp, formatXK]
  interval_cases i <;> simp

theorem fieldX_formatXK (op x : Nibble) (kk : Byte) : fieldX (formatXK op x kk) = x := by
  apply BitVec.eq_of_getLsbD_eq
  intro i hi
  simp [fieldX, formatXK]
  interval_cases i <;> simp

theorem fieldKK_formatXK (op x : Nibble) (kk : Byte) : fieldKK (formatXK op x kk) = kk := by
  apply BitVec.eq_of_getLsbD_eq
  intro i hi
  simp [fieldKK, formatXK]
  interval_cases i <;> simp

theorem fieldOp_formatXYN (op x y n : Nibble) : fieldOp (formatXYN op x y n) = op := by
  apply BitVec.eq_of_getLsbD_eq
  intro i hi
  simp [fieldOp, formatXYN]
  interval_cases i <;> simp

theorem fieldX_formatXYN (op x y n : Nibble) : fieldX (formatXYN op x y n) = x := by
  apply BitVec.eq_of_getLsbD_eq
  intro i hi
  simp [fieldX, formatXYN]
  interval_cases i <;> simp

theorem fieldY_formatXYN (op x y n : Nibble) : fieldY (formatXYN op x y n) = y := by
  apply BitVec.eq_of_getLsbD_eq
  intro i hi
  simp [fieldY, formatXYN]
  interval_cases i <;> simp

theorem fieldN_formatXYN (op x y n : Nibble) : fieldN (formatXYN op x y n) = n := by
  apply BitVec.eq_of_getLsbD_eq
  intro i hi
  simp [fieldN, formatXYN]
  interval_cases i <;> simp

theorem formatA_fields (w : Word) : formatA (fieldOp w) (fieldNNN w) = w := by
  apply BitVec.eq_of_getLsbD_eq
  intro i hi
  simp [formatA, fieldOp, fieldNNN, hi]
  interval_cases i <;> simp

theorem formatXK_fields (w : Word) : formatXK (fieldOp w) (fieldX w) (fieldKK w) = w := by
  apply BitVec.eq_of_getLsbD_eq
  intro i hi
  simp [formatXK, fieldOp, fieldX, fieldKK, hi]
  interval_cases i <;> simp

theorem formatXYN_fields (w : Word) : formatXYN (fieldOp w) (fieldX w) (fieldY w) (fieldN w) = w := by
  apply BitVec.eq_of_getLsbD_eq
  intro i hi
  simp [formatXYN, fieldOp, fieldX, fieldY, fieldN, hi]
  interval_cases i <;> simp

/-- The word of two bytes, as a number: 256 times the high byte and the low byte (R43, R66). -/
theorem wordOfBytes_toNat (hi lo : Byte) : (wordOfBytes hi lo).toNat = hi.toNat * 256 + lo.toNat := by
  have hh := hi.isLt
  have hl := lo.isLt
  have h1 : (hi.setWidth 16 <<< 8 : Word).toNat = hi.toNat <<< 8 := by
    simp only [BitVec.toNat_shiftLeft, BitVec.toNat_setWidth, Nat.shiftLeft_eq]
    omega
  have h2 : (lo.setWidth 16 : Word).toNat = lo.toNat := by
    simp only [BitVec.toNat_setWidth]
    omega
  rw [wordOfBytes, BitVec.toNat_or, h1, h2, ← Nat.shiftLeft_add_eq_or_of_lt hl, Nat.shiftLeft_eq]

/-- The two bytes of a word, put together again. -/
theorem wordOfBytes_bytes (w : Word) : wordOfBytes (w.extractLsb' 8 8) (w.extractLsb' 0 8) = w := by
  apply BitVec.eq_of_getLsbD_eq
  intro i hi
  simp [wordOfBytes, hi]
  interval_cases i <;> simp

/-- Every nibble is one of the sixteen. -/
theorem nibble_cases (o : Nibble) :
    o = 0#4 ∨ o = 1#4 ∨ o = 2#4 ∨ o = 3#4 ∨ o = 4#4 ∨ o = 5#4 ∨ o = 6#4 ∨ o = 7#4 ∨ o = 8#4 ∨ o = 9#4 ∨
      o = 10#4 ∨ o = 11#4 ∨ o = 12#4 ∨ o = 13#4 ∨ o = 14#4 ∨ o = 15#4 := by
  revert o
  decide

/-! The decoder, primary code by primary code (R54). -/

theorem decodeWord_op_0 {w : Word} (h : fieldOp w = 0x0#4) : decodeWord w = decodeFamily0 w := by
  simp [decodeWord, h]

theorem decodeWord_op_1 {w : Word} (h : fieldOp w = 0x1#4) : decodeWord w = some (.jp (fieldNNN w)) := by
  simp [decodeWord, h]

theorem decodeWord_op_2 {w : Word} (h : fieldOp w = 0x2#4) : decodeWord w = some (.call (fieldNNN w)) := by
  simp [decodeWord, h]

theorem decodeWord_op_3 {w : Word} (h : fieldOp w = 0x3#4) : decodeWord w = some (.seImm (fieldX w) (fieldKK w)) := by
  simp [decodeWord, h]

theorem decodeWord_op_4 {w : Word} (h : fieldOp w = 0x4#4) : decodeWord w = some (.sneImm (fieldX w) (fieldKK w)) := by
  simp [decodeWord, h]

theorem decodeWord_op_5 {w : Word} (h : fieldOp w = 0x5#4) : decodeWord w = some (.seReg (fieldX w) (fieldY w) (fieldN w)) := by
  simp [decodeWord, h]

theorem decodeWord_op_6 {w : Word} (h : fieldOp w = 0x6#4) : decodeWord w = some (.ldImm (fieldX w) (fieldKK w)) := by
  simp [decodeWord, h]

theorem decodeWord_op_7 {w : Word} (h : fieldOp w = 0x7#4) : decodeWord w = some (.addImm (fieldX w) (fieldKK w)) := by
  simp [decodeWord, h]

theorem decodeWord_op_8 {w : Word} (h : fieldOp w = 0x8#4) : decodeWord w = decodeFamily8 w := by
  simp [decodeWord, h]

theorem decodeWord_op_9 {w : Word} (h : fieldOp w = 0x9#4) : decodeWord w = some (.sneReg (fieldX w) (fieldY w) (fieldN w)) := by
  simp [decodeWord, h]

theorem decodeWord_op_A {w : Word} (h : fieldOp w = 0xA#4) : decodeWord w = some (.ldI (fieldNNN w)) := by
  simp [decodeWord, h]

theorem decodeWord_op_B {w : Word} (h : fieldOp w = 0xB#4) : decodeWord w = some (.jpV0 (fieldNNN w)) := by
  simp [decodeWord, h]

theorem decodeWord_op_C {w : Word} (h : fieldOp w = 0xC#4) : decodeWord w = some (.rnd (fieldX w) (fieldKK w)) := by
  simp [decodeWord, h]

theorem decodeWord_op_D {w : Word} (h : fieldOp w = 0xD#4) : decodeWord w = some (.drw (fieldX w) (fieldY w) (fieldN w)) := by
  simp [decodeWord, h]

theorem decodeWord_op_E {w : Word} (h : fieldOp w = 0xE#4) : decodeWord w = decodeFamilyE w := by
  simp [decodeWord, h]

theorem decodeWord_op_F {w : Word} (h : fieldOp w = 0xF#4) : decodeWord w = decodeFamilyF w := by
  simp [decodeWord, h]

end Sys2Proof
end

