-- ==== Sys2Proof/Laws/State.lean ====
section
/-! SUPPORT. Beside State: what each named update does to each field, one lemma a field, all true by rfl. -/

namespace Sys2Proof.Machine

@[simp] theorem advance_v (w : Word) (s : State) : (advance w s).v = s.v := rfl
@[simp] theorem advance_idx (w : Word) (s : State) : (advance w s).idx = s.idx := rfl
@[simp] theorem advance_stack (w : Word) (s : State) : (advance w s).stack = s.stack := rfl
@[simp] theorem advance_sp (w : Word) (s : State) : (advance w s).sp = s.sp := rfl
@[simp] theorem advance_pc (w : Word) (s : State) : (advance w s).pc = s.pc + 2#16 := rfl
@[simp] theorem advance_dt (w : Word) (s : State) : (advance w s).dt = s.dt := rfl
@[simp] theorem advance_st (w : Word) (s : State) : (advance w s).st = s.st := rfl
@[simp] theorem advance_fb (w : Word) (s : State) : (advance w s).fb = s.fb := rfl
@[simp] theorem advance_mem (w : Word) (s : State) : (advance w s).mem = s.mem := rfl
@[simp] theorem advance_ir (w : Word) (s : State) : (advance w s).ir = w := rfl
@[simp] theorem advance_status (w : Word) (s : State) : (advance w s).status = s.status := rfl
@[simp] theorem advance_faultInfo (w : Word) (s : State) : (advance w s).faultInfo = s.faultInfo := rfl
@[simp] theorem advance_tone (w : Word) (s : State) : (advance w s).tone = s.tone := rfl
@[simp] theorem advance_unrec (w : Word) (s : State) : (advance w s).unrec = s.unrec := rfl
@[simp] theorem advance_env (w : Word) (s : State) : (advance w s).env = s.env := rfl
@[simp] theorem advance_loadOpen (w : Word) (s : State) : (advance w s).loadOpen = s.loadOpen := rfl

@[simp] theorem writeV_v (x : Nibble) (b : Byte) (s : State) : (writeV x b s).v = s.v.set x.toNat b x.isLt := rfl
@[simp] theorem writeV_idx (x : Nibble) (b : Byte) (s : State) : (writeV x b s).idx = s.idx := rfl
@[simp] theorem writeV_stack (x : Nibble) (b : Byte) (s : State) : (writeV x b s).stack = s.stack := rfl
@[simp] theorem writeV_sp (x : Nibble) (b : Byte) (s : State) : (writeV x b s).sp = s.sp := rfl
@[simp] theorem writeV_pc (x : Nibble) (b : Byte) (s : State) : (writeV x b s).pc = s.pc := rfl
@[simp] theorem writeV_dt (x : Nibble) (b : Byte) (s : State) : (writeV x b s).dt = s.dt := rfl
@[simp] theorem writeV_st (x : Nibble) (b : Byte) (s : State) : (writeV x b s).st = s.st := rfl
@[simp] theorem writeV_fb (x : Nibble) (b : Byte) (s : State) : (writeV x b s).fb = s.fb := rfl
@[simp] theorem writeV_mem (x : Nibble) (b : Byte) (s : State) : (writeV x b s).mem = s.mem := rfl
@[simp] theorem writeV_ir (x : Nibble) (b : Byte) (s : State) : (writeV x b s).ir = s.ir := rfl
@[simp] theorem writeV_status (x : Nibble) (b : Byte) (s : State) : (writeV x b s).status = s.status := rfl
@[simp] theorem writeV_faultInfo (x : Nibble) (b : Byte) (s : State) : (writeV x b s).faultInfo = s.faultInfo := rfl
@[simp] theorem writeV_tone (x : Nibble) (b : Byte) (s : State) : (writeV x b s).tone = s.tone := rfl
@[simp] theorem writeV_unrec (x : Nibble) (b : Byte) (s : State) : (writeV x b s).unrec = s.unrec := rfl
@[simp] theorem writeV_env (x : Nibble) (b : Byte) (s : State) : (writeV x b s).env = s.env := rfl
@[simp] theorem writeV_loadOpen (x : Nibble) (b : Byte) (s : State) : (writeV x b s).loadOpen = s.loadOpen := rfl

@[simp] theorem jumpTo_v (a : Word) (s : State) : (jumpTo a s).v = s.v := rfl
@[simp] theorem jumpTo_idx (a : Word) (s : State) : (jumpTo a s).idx = s.idx := rfl
@[simp] theorem jumpTo_stack (a : Word) (s : State) : (jumpTo a s).stack = s.stack := rfl
@[simp] theorem jumpTo_sp (a : Word) (s : State) : (jumpTo a s).sp = s.sp := rfl
@[simp] theorem jumpTo_pc (a : Word) (s : State) : (jumpTo a s).pc = a := rfl
@[simp] theorem jumpTo_dt (a : Word) (s : State) : (jumpTo a s).dt = s.dt := rfl
@[simp] theorem jumpTo_st (a : Word) (s : State) : (jumpTo a s).st = s.st := rfl
@[simp] theorem jumpTo_fb (a : Word) (s : State) : (jumpTo a s).fb = s.fb := rfl
@[simp] theorem jumpTo_mem (a : Word) (s : State) : (jumpTo a s).mem = s.mem := rfl
@[simp] theorem jumpTo_ir (a : Word) (s : State) : (jumpTo a s).ir = s.ir := rfl
@[simp] theorem jumpTo_status (a : Word) (s : State) : (jumpTo a s).status = s.status := rfl
@[simp] theorem jumpTo_faultInfo (a : Word) (s : State) : (jumpTo a s).faultInfo = s.faultInfo := rfl
@[simp] theorem jumpTo_tone (a : Word) (s : State) : (jumpTo a s).tone = s.tone := rfl
@[simp] theorem jumpTo_unrec (a : Word) (s : State) : (jumpTo a s).unrec = s.unrec := rfl
@[simp] theorem jumpTo_env (a : Word) (s : State) : (jumpTo a s).env = s.env := rfl
@[simp] theorem jumpTo_loadOpen (a : Word) (s : State) : (jumpTo a s).loadOpen = s.loadOpen := rfl

@[simp] theorem skipIf_v (c : Bool) (s : State) : (skipIf c s).v = s.v := rfl
@[simp] theorem skipIf_idx (c : Bool) (s : State) : (skipIf c s).idx = s.idx := rfl
@[simp] theorem skipIf_stack (c : Bool) (s : State) : (skipIf c s).stack = s.stack := rfl
@[simp] theorem skipIf_sp (c : Bool) (s : State) : (skipIf c s).sp = s.sp := rfl
@[simp] theorem skipIf_pc (c : Bool) (s : State) : (skipIf c s).pc = if c then s.pc + 2#16 else s.pc := rfl
@[simp] theorem skipIf_dt (c : Bool) (s : State) : (skipIf c s).dt = s.dt := rfl
@[simp] theorem skipIf_st (c : Bool) (s : State) : (skipIf c s).st = s.st := rfl
@[simp] theorem skipIf_fb (c : Bool) (s : State) : (skipIf c s).fb = s.fb := rfl
@[simp] theorem skipIf_mem (c : Bool) (s : State) : (skipIf c s).mem = s.mem := rfl
@[simp] theorem skipIf_ir (c : Bool) (s : State) : (skipIf c s).ir = s.ir := rfl
@[simp] theorem skipIf_status (c : Bool) (s : State) : (skipIf c s).status = s.status := rfl
@[simp] theorem skipIf_faultInfo (c : Bool) (s : State) : (skipIf c s).faultInfo = s.faultInfo := rfl
@[simp] theorem skipIf_tone (c : Bool) (s : State) : (skipIf c s).tone = s.tone := rfl
@[simp] theorem skipIf_unrec (c : Bool) (s : State) : (skipIf c s).unrec = s.unrec := rfl
@[simp] theorem skipIf_env (c : Bool) (s : State) : (skipIf c s).env = s.env := rfl
@[simp] theorem skipIf_loadOpen (c : Bool) (s : State) : (skipIf c s).loadOpen = s.loadOpen := rfl

@[simp] theorem writeI_v (a : Word) (s : State) : (writeI a s).v = s.v := rfl
@[simp] theorem writeI_idx (a : Word) (s : State) : (writeI a s).idx = a := rfl
@[simp] theorem writeI_stack (a : Word) (s : State) : (writeI a s).stack = s.stack := rfl
@[simp] theorem writeI_sp (a : Word) (s : State) : (writeI a s).sp = s.sp := rfl
@[simp] theorem writeI_pc (a : Word) (s : State) : (writeI a s).pc = s.pc := rfl
@[simp] theorem writeI_dt (a : Word) (s : State) : (writeI a s).dt = s.dt := rfl
@[simp] theorem writeI_st (a : Word) (s : State) : (writeI a s).st = s.st := rfl
@[simp] theorem writeI_fb (a : Word) (s : State) : (writeI a s).fb = s.fb := rfl
@[simp] theorem writeI_mem (a : Word) (s : State) : (writeI a s).mem = s.mem := rfl
@[simp] theorem writeI_ir (a : Word) (s : State) : (writeI a s).ir = s.ir := rfl
@[simp] theorem writeI_status (a : Word) (s : State) : (writeI a s).status = s.status := rfl
@[simp] theorem writeI_faultInfo (a : Word) (s : State) : (writeI a s).faultInfo = s.faultInfo := rfl
@[simp] theorem writeI_tone (a : Word) (s : State) : (writeI a s).tone = s.tone := rfl
@[simp] theorem writeI_unrec (a : Word) (s : State) : (writeI a s).unrec = s.unrec := rfl
@[simp] theorem writeI_env (a : Word) (s : State) : (writeI a s).env = s.env := rfl
@[simp] theorem writeI_loadOpen (a : Word) (s : State) : (writeI a s).loadOpen = s.loadOpen := rfl

@[simp] theorem raise_v (e : FaultSignal) (w : Word) (s : State) : (raise e w s).v = s.v := rfl
@[simp] theorem raise_idx (e : FaultSignal) (w : Word) (s : State) : (raise e w s).idx = s.idx := rfl
@[simp] theorem raise_stack (e : FaultSignal) (w : Word) (s : State) : (raise e w s).stack = s.stack := rfl
@[simp] theorem raise_sp (e : FaultSignal) (w : Word) (s : State) : (raise e w s).sp = s.sp := rfl
@[simp] theorem raise_pc (e : FaultSignal) (w : Word) (s : State) : (raise e w s).pc = s.pc := rfl
@[simp] theorem raise_dt (e : FaultSignal) (w : Word) (s : State) : (raise e w s).dt = s.dt := rfl
@[simp] theorem raise_st (e : FaultSignal) (w : Word) (s : State) : (raise e w s).st = s.st := rfl
@[simp] theorem raise_fb (e : FaultSignal) (w : Word) (s : State) : (raise e w s).fb = s.fb := rfl
@[simp] theorem raise_mem (e : FaultSignal) (w : Word) (s : State) : (raise e w s).mem = s.mem := rfl
@[simp] theorem raise_ir (e : FaultSignal) (w : Word) (s : State) : (raise e w s).ir = s.ir := rfl
@[simp] theorem raise_status (e : FaultSignal) (w : Word) (s : State) : (raise e w s).status = .faulted e.cause := rfl
@[simp] theorem raise_faultInfo (e : FaultSignal) (w : Word) (s : State) : (raise e w s).faultInfo = ⟨s.pc, w, e.dataAddr⟩ := rfl
@[simp] theorem raise_tone (e : FaultSignal) (w : Word) (s : State) : (raise e w s).tone = false := rfl
@[simp] theorem raise_unrec (e : FaultSignal) (w : Word) (s : State) : (raise e w s).unrec = none := rfl
@[simp] theorem raise_env (e : FaultSignal) (w : Word) (s : State) : (raise e w s).env = s.env := rfl
@[simp] theorem raise_loadOpen (e : FaultSignal) (w : Word) (s : State) : (raise e w s).loadOpen = s.loadOpen := rfl

@[simp] theorem timerPhase_v (s : State) : (timerPhase s).v = s.v := rfl
@[simp] theorem timerPhase_idx (s : State) : (timerPhase s).idx = s.idx := rfl
@[simp] theorem timerPhase_stack (s : State) : (timerPhase s).stack = s.stack := rfl
@[simp] theorem timerPhase_sp (s : State) : (timerPhase s).sp = s.sp := rfl
@[simp] theorem timerPhase_pc (s : State) : (timerPhase s).pc = s.pc := rfl
@[simp] theorem timerPhase_dt (s : State) : (timerPhase s).dt = countDown s.dt := rfl
@[simp] theorem timerPhase_st (s : State) : (timerPhase s).st = countDown s.st := rfl
@[simp] theorem timerPhase_fb (s : State) : (timerPhase s).fb = s.fb := rfl
@[simp] theorem timerPhase_mem (s : State) : (timerPhase s).mem = s.mem := rfl
@[simp] theorem timerPhase_ir (s : State) : (timerPhase s).ir = s.ir := rfl
@[simp] theorem timerPhase_status (s : State) : (timerPhase s).status = s.status := rfl
@[simp] theorem timerPhase_faultInfo (s : State) : (timerPhase s).faultInfo = s.faultInfo := rfl
@[simp] theorem timerPhase_tone (s : State) : (timerPhase s).tone = (s.st == 1#8) := rfl
@[simp] theorem timerPhase_unrec (s : State) : (timerPhase s).unrec = s.unrec := rfl
@[simp] theorem timerPhase_env (s : State) : (timerPhase s).env = s.env := rfl
@[simp] theorem timerPhase_loadOpen (s : State) : (timerPhase s).loadOpen = s.loadOpen := rfl

@[simp] theorem clearOutputs_v (s : State) : (clearOutputs s).v = s.v := rfl
@[simp] theorem clearOutputs_idx (s : State) : (clearOutputs s).idx = s.idx := rfl
@[simp] theorem clearOutputs_stack (s : State) : (clearOutputs s).stack = s.stack := rfl
@[simp] theorem clearOutputs_sp (s : State) : (clearOutputs s).sp = s.sp := rfl
@[simp] theorem clearOutputs_pc (s : State) : (clearOutputs s).pc = s.pc := rfl
@[simp] theorem clearOutputs_dt (s : State) : (clearOutputs s).dt = s.dt := rfl
@[simp] theorem clearOutputs_st (s : State) : (clearOutputs s).st = s.st := rfl
@[simp] theorem clearOutputs_fb (s : State) : (clearOutputs s).fb = s.fb := rfl
@[simp] theorem clearOutputs_mem (s : State) : (clearOutputs s).mem = s.mem := rfl
@[simp] theorem clearOutputs_ir (s : State) : (clearOutputs s).ir = s.ir := rfl
@[simp] theorem clearOutputs_status (s : State) : (clearOutputs s).status = s.status := rfl
@[simp] theorem clearOutputs_faultInfo (s : State) : (clearOutputs s).faultInfo = s.faultInfo := rfl
@[simp] theorem clearOutputs_tone (s : State) : (clearOutputs s).tone = false := rfl
@[simp] theorem clearOutputs_unrec (s : State) : (clearOutputs s).unrec = none := rfl
@[simp] theorem clearOutputs_env (s : State) : (clearOutputs s).env = s.env := rfl
@[simp] theorem clearOutputs_loadOpen (s : State) : (clearOutputs s).loadOpen = s.loadOpen := rfl

@[simp] theorem beginStep_v (i : StepInput) (s : State) : (beginStep i s).v = s.v := rfl
@[simp] theorem beginStep_idx (i : StepInput) (s : State) : (beginStep i s).idx = s.idx := rfl
@[simp] theorem beginStep_stack (i : StepInput) (s : State) : (beginStep i s).stack = s.stack := rfl
@[simp] theorem beginStep_sp (i : StepInput) (s : State) : (beginStep i s).sp = s.sp := rfl
@[simp] theorem beginStep_pc (i : StepInput) (s : State) : (beginStep i s).pc = s.pc := rfl
@[simp] theorem beginStep_dt (i : StepInput) (s : State) : (beginStep i s).dt = s.dt := rfl
@[simp] theorem beginStep_st (i : StepInput) (s : State) : (beginStep i s).st = s.st := rfl
@[simp] theorem beginStep_fb (i : StepInput) (s : State) : (beginStep i s).fb = s.fb := rfl
@[simp] theorem beginStep_mem (i : StepInput) (s : State) : (beginStep i s).mem = s.mem := rfl
@[simp] theorem beginStep_ir (i : StepInput) (s : State) : (beginStep i s).ir = s.ir := rfl
@[simp] theorem beginStep_status (i : StepInput) (s : State) : (beginStep i s).status = s.status := rfl
@[simp] theorem beginStep_faultInfo (i : StepInput) (s : State) : (beginStep i s).faultInfo = s.faultInfo := rfl
@[simp] theorem beginStep_tone (i : StepInput) (s : State) : (beginStep i s).tone = false := rfl
@[simp] theorem beginStep_unrec (i : StepInput) (s : State) : (beginStep i s).unrec = none := rfl
@[simp] theorem beginStep_env (i : StepInput) (s : State) : (beginStep i s).env = { s.env with input := i } := rfl
@[simp] theorem beginStep_loadOpen (i : StepInput) (s : State) : (beginStep i s).loadOpen = false := rfl

@[simp] theorem reportUnrecognized_v (w : Word) (s : State) : (reportUnrecognized w s).v = s.v := rfl
@[simp] theorem reportUnrecognized_idx (w : Word) (s : State) : (reportUnrecognized w s).idx = s.idx := rfl
@[simp] theorem reportUnrecognized_stack (w : Word) (s : State) : (reportUnrecognized w s).stack = s.stack := rfl
@[simp] theorem reportUnrecognized_sp (w : Word) (s : State) : (reportUnrecognized w s).sp = s.sp := rfl
@[simp] theorem reportUnrecognized_pc (w : Word) (s : State) : (reportUnrecognized w s).pc = s.pc + 2#16 := rfl
@[simp] theorem reportUnrecognized_dt (w : Word) (s : State) : (reportUnrecognized w s).dt = s.dt := rfl
@[simp] theorem reportUnrecognized_st (w : Word) (s : State) : (reportUnrecognized w s).st = s.st := rfl
@[simp] theorem reportUnrecognized_fb (w : Word) (s : State) : (reportUnrecognized w s).fb = s.fb := rfl
@[simp] theorem reportUnrecognized_mem (w : Word) (s : State) : (reportUnrecognized w s).mem = s.mem := rfl
@[simp] theorem reportUnrecognized_ir (w : Word) (s : State) : (reportUnrecognized w s).ir = w := rfl
@[simp] theorem reportUnrecognized_status (w : Word) (s : State) : (reportUnrecognized w s).status = s.status := rfl
@[simp] theorem reportUnrecognized_faultInfo (w : Word) (s : State) : (reportUnrecognized w s).faultInfo = s.faultInfo := rfl
@[simp] theorem reportUnrecognized_tone (w : Word) (s : State) : (reportUnrecognized w s).tone = s.tone := rfl
@[simp] theorem reportUnrecognized_unrec (w : Word) (s : State) : (reportUnrecognized w s).unrec = some ⟨w, s.pc⟩ := rfl
@[simp] theorem reportUnrecognized_env (w : Word) (s : State) : (reportUnrecognized w s).env = s.env := rfl
@[simp] theorem reportUnrecognized_loadOpen (w : Word) (s : State) : (reportUnrecognized w s).loadOpen = s.loadOpen := rfl

end Sys2Proof.Machine
end

