-- ==== Sys2Proof/Laws/Memory.lean ====
section
/-! SUPPORT. The laws of memory: a byte read after a store, the canonical form kept by every operation, and what the
block accesses answer (R41, R42, R100, R108). -/

namespace Sys2Proof.Machine

/-! ### One byte -/

theorem Memory.get_erase (m : Memory) (a a' : Nat) :
    Memory.get (m.erase a) a' = if a' = a then resetByte a else m.get a' := by
  induction m with
  | nil => simp +contextual [Memory.erase, Memory.get]
  | cons c m ih =>
    obtain ⟨k, b⟩ := c
    simp only [Memory.erase] at ih ⊢
    by_cases hk : k = a
    · subst hk
      simp only [List.filter, ne_eq, not_true_eq_false, decide_false, ih, Memory.get]
      split <;> rename_i h
      · rfl
      · rw [if_neg (fun e => h e.symm)]
    · simp only [List.filter, ne_eq, hk, not_false_eq_true, decide_true, Memory.get, ih]
      by_cases hka : k = a'
      · subst hka; simp [hk]
      · simp [hka]

theorem Memory.get_insert (m : Memory) (a a' : Nat) (b : Byte) (hm : ∀ c ∈ m, c.1 ≠ a) :
    Memory.get (m.insert a b) a' = if a' = a then b else m.get a' := by
  induction m with
  | nil => simp [Memory.insert, Memory.get, eq_comm]
  | cons c m ih =>
    obtain ⟨k, d⟩ := c
    have hk : k ≠ a := hm (k, d) (by simp)
    have ih := ih (fun c hc => hm c (by simp [hc]))
    simp only [Memory.insert]
    split
    · simp only [Memory.get, eq_comm]
    · simp only [Memory.get, ih]
      by_cases h : k = a'
      · subst h; simp [hk]
      · simp [h]

theorem Memory.not_mem_erase (m : Memory) (a : Nat) : ∀ c ∈ m.erase a, c.1 ≠ a := by
  intro c hc
  simpa using (List.mem_filter.1 hc).2

/-- A byte read after one byte is stored: the byte stored, or what was there. Of any memory, canonical or not. -/
@[simp] theorem Memory.get_set (m : Memory) (a a' : Nat) (b : Byte) :
    Memory.get (m.set a b) a' = if a' = a then b else m.get a' := by
  unfold Memory.set
  split
  · rename_i h; rw [Memory.get_erase, h]
  · rw [Memory.get_insert _ _ _ _ (Memory.not_mem_erase m a), Memory.get_erase]
    split <;> simp_all

/-! ### The canonical form -/

theorem Memory.wfFrom_cons (lo k : Nat) (b : Byte) (m : Memory) :
    Memory.wfFrom lo ((k, b) :: m) ↔
      lo ≤ k ∧ k < Config.memSize ∧ b ≠ resetByte k ∧ Memory.wfFrom (k + 1) m := by
  simp [Memory.wfFrom, and_assoc]

theorem Memory.wfFrom_mono {lo lo' : Nat} (h : lo' ≤ lo) : ∀ {m : Memory}, Memory.wfFrom lo m → Memory.wfFrom lo' m
  | [], _ => rfl
  | (k, b) :: m, hm => by
    rw [Memory.wfFrom_cons] at hm ⊢
    exact ⟨le_trans h hm.1, hm.2⟩

theorem Memory.wfFrom_erase (a : Nat) : ∀ {lo : Nat} {m : Memory}, Memory.wfFrom lo m → Memory.wfFrom lo (m.erase a)
  | _, [], _ => rfl
  | lo, (k, b) :: m, hm => by
    rw [Memory.wfFrom_cons] at hm
    have ih := Memory.wfFrom_erase a hm.2.2.2
    by_cases hk : k = a
    · simp only [Memory.erase, List.filter, hk, ne_eq, not_true_eq_false, decide_false]
      exact Memory.wfFrom_mono (by omega) ih
    · simp only [Memory.erase, List.filter, hk, ne_eq, not_false_eq_true, decide_true]
      exact (Memory.wfFrom_cons ..).2 ⟨hm.1, hm.2.1, hm.2.2.1, ih⟩

theorem Memory.wfFrom_insert (a : Nat) (b : Byte) (ha : a < Config.memSize) (hb : b ≠ resetByte a) :
    ∀ {lo : Nat} {m : Memory}, lo ≤ a → (∀ c ∈ m, c.1 ≠ a) → Memory.wfFrom lo m → Memory.wfFrom lo (m.insert a b)
  | lo, [], hlo, _, _ => (Memory.wfFrom_cons ..).2 ⟨hlo, ha, hb, rfl⟩
  | lo, (k, c) :: m, hlo, hm, hw => by
    have hk : k ≠ a := hm (k, c) (by simp)
    rw [Memory.wfFrom_cons] at hw
    simp only [Memory.insert]
    split
    · exact (Memory.wfFrom_cons ..).2 ⟨hlo, ha, hb, (Memory.wfFrom_cons ..).2 ⟨by omega, hw.2⟩⟩
    · exact (Memory.wfFrom_cons ..).2 ⟨hw.1, hw.2.1, hw.2.2.1,
        Memory.wfFrom_insert a b ha hb (by omega) (fun d hd => hm d (by simp [hd])) hw.2.2.2⟩

/-- A store of one byte inside memory keeps the canonical form. -/
theorem Memory.wf_set {m : Memory} {a : Nat} {b : Byte} (ha : a < Config.memSize) (hm : m.wf) : (m.set a b).wf := by
  unfold Memory.set
  split
  · exact Memory.wfFrom_erase a hm
  · rename_i hb
    exact Memory.wfFrom_insert a b ha hb (Nat.zero_le _) (Memory.not_mem_erase m a) (Memory.wfFrom_erase a hm)

/-! ### Blocks -/

/-- A copy of bytes from `a` up: the bytes where they go, every other byte as before. -/
theorem get_copyBytes (bs : List Byte) (m : Memory) (a a' : Nat) :
    Memory.get (copyBytes m a bs) a' = if h : a ≤ a' ∧ a' - a < bs.length then bs[a' - a]'h.2 else m.get a' := by
  induction bs generalizing m a with
  | nil => simp [copyBytes]
  | cons b bs ih =>
    simp only [copyBytes, ih, Memory.get_set]
    by_cases h1 : a + 1 ≤ a'
    · obtain ⟨d, rfl⟩ : ∃ d, a' = a + 1 + d := ⟨a' - (a + 1), by omega⟩
      have e : a + 1 + d - a = d + 1 := by omega
      simp [e, show a ≤ a + 1 + d by omega, show ¬ a + 1 + d = a by omega]
    · by_cases h2 : a' = a
      · subst h2; simp
      · simp [h1, h2, show ¬ a ≤ a' by omega]

theorem wf_copyBytes (bs : List Byte) {m : Memory} {a : Nat} (h : a + bs.length ≤ Config.memSize) (hm : m.wf) :
    (copyBytes m a bs).wf := by
  induction bs generalizing m a with
  | nil => exact hm
  | cons b bs ih =>
    simp only [List.length_cons] at h
    exact ih (by omega) (Memory.wf_set (by omega) hm)

theorem memRead_ok {m : Memory} {a : Nat} (h : a < Config.memSize) : memRead m a = .ok (m.get a) := if_pos h

theorem memRead_error {m : Memory} {a : Nat} (h : Config.memSize ≤ a) : memRead m a = .error (outOfBounds a) :=
  if_neg (by omega)

theorem memWrite_ok {m : Memory} {a : Nat} {b : Byte} (h : a < Config.memSize) : memWrite m a b = .ok (m.set a b) :=
  if_pos h

theorem memWrite_error {m : Memory} {a : Nat} {b : Byte} (h : Config.memSize ≤ a) :
    memWrite m a b = .error (outOfBounds a) :=
  if_neg (by omega)

/-- A block store inside memory answers the copy. -/
theorem writeBlock_ok (bs : List Byte) {m : Memory} {a : Nat} (h : a + bs.length ≤ Config.memSize) :
    writeBlock m a bs = .ok (copyBytes m a bs) := by
  induction bs generalizing m a with
  | nil => rfl
  | cons b bs ih =>
    simp only [List.length_cons] at h
    simp only [writeBlock, copyBytes, memWrite_ok (b := b) (show a < Config.memSize by omega)]
    exact ih (by omega)

/-- A block store that runs past memory signals the lowest address out of bounds. -/
theorem writeBlock_error (bs : List Byte) {m : Memory} {a : Nat} (hne : bs ≠ [])
    (h : Config.memSize < a + bs.length) :
    writeBlock m a bs = .error (outOfBounds (max a Config.memSize)) := by
  induction bs generalizing m a with
  | nil => exact absurd rfl hne
  | cons b bs ih =>
    simp only [List.length_cons] at h
    by_cases ha : a < Config.memSize
    · simp only [writeBlock, memWrite_ok (b := b) ha]
      have hb : bs ≠ [] := by rintro rfl; simp at h; omega
      rw [ih hb (by omega)]
      congr 2; omega
    · simp only [writeBlock, memWrite_error (b := b) (show Config.memSize ≤ a by omega)]
      congr 2; omega

/-- A block read inside memory answers the bytes. -/
theorem readBlock_ok (n : Nat) {m : Memory} {a : Nat} (h : a + n ≤ Config.memSize) :
    readBlock m a n = .ok ((List.range n).map (fun k => m.get (a + k))) := by
  induction n generalizing a with
  | zero => rfl
  | succ n ih =>
    simp only [readBlock, memRead_ok (show a < Config.memSize by omega), ih (show a + 1 + n ≤ Config.memSize by omega),
      List.range_succ_eq_map, List.map_cons, List.map_map, Nat.add_zero]
    congr 3
    funext k
    simp only [Function.comp, Nat.succ_eq_add_one]
    congr 1; omega

/-- A block read that runs past memory signals the lowest address out of bounds. -/
theorem readBlock_error (n : Nat) {m : Memory} {a : Nat} (hn : 0 < n) (h : Config.memSize < a + n) :
    readBlock m a n = .error (outOfBounds (max a Config.memSize)) := by
  induction n generalizing a with
  | zero => omega
  | succ n ih =>
    by_cases ha : a < Config.memSize
    · simp only [readBlock, memRead_ok ha, ih (show 0 < n by omega) (show Config.memSize < a + 1 + n by omega)]
      congr 2; omega
    · simp only [readBlock, memRead_error (show Config.memSize ≤ a by omega)]
      congr 2; omega

/-! ### Stores and reads at `I` -/

/-- A store at `I` inside memory: only memory changes, by the copy. -/
theorem storeAtI_ok {bs : List Byte} {s : State} (h : s.idx.toNat + bs.length ≤ Config.memSize) :
    storeAtI bs s = .ok { s with mem := copyBytes s.mem s.idx.toNat bs } := by
  simp only [storeAtI, writeBlock_ok bs h]

/-- A store at `I` that runs past memory signals. -/
theorem storeAtI_error {bs : List Byte} {s : State} (hne : bs ≠ []) (h : Config.memSize < s.idx.toNat + bs.length) :
    storeAtI bs s = .error (outOfBounds (max s.idx.toNat Config.memSize)) := by
  simp only [storeAtI, writeBlock_error bs hne h]

/-- Whatever a store at `I` answers, it is one of the two above. -/
theorem storeAtI_cases {bs : List Byte} {s t : State} (h : storeAtI bs s = .ok t) :
    t = { s with mem := copyBytes s.mem s.idx.toNat bs } ∧ (s.idx.toNat + bs.length ≤ Config.memSize ∨ bs = []) := by
  by_cases hne : bs = []
  · subst hne
    simp only [storeAtI, writeBlock, Except.ok.injEq] at h
    exact ⟨h.symm, .inr rfl⟩
  · by_cases hb : s.idx.toNat + bs.length ≤ Config.memSize
    · rw [storeAtI_ok hb] at h
      exact ⟨(Except.ok.inj h).symm, .inl hb⟩
    · rw [storeAtI_error hne (by omega)] at h
      cases h

/-- A store at `I` keeps the canonical form. -/
theorem storeAtI_wf {bs : List Byte} {s t : State} (h : storeAtI bs s = .ok t) (hs : s.mem.wf) : t.mem.wf := by
  obtain ⟨rfl, hb | rfl⟩ := storeAtI_cases h
  · exact wf_copyBytes bs hb hs
  · exact hs

/-- An address out of bounds, recorded, is the address: the lowest one is `I` itself or 4096. -/
theorem outOfBounds_max_idx (s : State) :
    (outOfBounds (max s.idx.toNat Config.memSize)).dataAddr =
      some (if Config.memSize ≤ s.idx.toNat then s.idx else 0x1000#16) := by
  simp only [outOfBounds]
  split <;> rename_i h
  · rw [max_eq_left h, BitVec.ofNat_toNat, BitVec.setWidth_eq]
  · rw [max_eq_right (by omega)]

end Sys2Proof.Machine
end

