-- ==== Sys2Proof/Laws/Registers.lean ====
section
/-! SUPPORT. Reading general registers after the operations that write them (R13, R106). -/

namespace Sys2Proof.Machine

theorem readV_eq_of_v {s t : State} (h : t.v = s.v) (x : Nibble) : readV t x = readV s x := by
  simp only [readV, h]

@[simp] theorem readV_writeV (x y : Nibble) (b : Byte) (s : State) :
    readV (writeV x b s) y = if y = x then b else readV s y := by
  have h : (x.toNat = y.toNat) ↔ y = x := by rw [eq_comm, BitVec.toNat_inj]
  simp only [readV, writeV_v, Vector.getElem_set, h]

@[simp] theorem readV_advance (w : Word) (s : State) (x : Nibble) : readV (advance w s) x = readV s x := rfl
@[simp] theorem readV_jumpTo (a : Word) (s : State) (x : Nibble) : readV (jumpTo a s) x = readV s x := rfl
@[simp] theorem readV_skipIf (c : Bool) (s : State) (x : Nibble) : readV (skipIf c s) x = readV s x := rfl
@[simp] theorem readV_writeI (a : Word) (s : State) (x : Nibble) : readV (writeI a s) x = readV s x := rfl
@[simp] theorem readV_timerPhase (s : State) (x : Nibble) : readV (timerPhase s) x = readV s x := rfl
@[simp] theorem readV_raise (e : FaultSignal) (w : Word) (s : State) (x : Nibble) :
    readV (raise e w s) x = readV s x := rfl
@[simp] theorem readV_beginStep (i : StepInput) (s : State) (x : Nibble) : readV (beginStep i s) x = readV s x := rfl
@[simp] theorem readV_clearOutputs (s : State) (x : Nibble) : readV (clearOutputs s) x = readV s x := rfl
@[simp] theorem readV_reportUnrecognized (w : Word) (s : State) (x : Nibble) :
    readV (reportUnrecognized w s) x = readV s x := rfl

/-- After a result and its flag: the flag register holds the flag, the destination (if another) the result. -/
theorem readV_writeWithFlag (x y : Nibble) (b : Byte) (f : Bool) (s : State) :
    readV (writeWithFlag x b f s) y =
      if y = flagReg then flagByte f else if y = x then b else readV s y := by
  simp only [writeWithFlag, readV_writeV]

/-- A block of registers written from number `k` up: each takes its byte, the others keep theirs. -/
theorem setRegsFrom_getElem (v : Vector Byte 16) (k : Nat) (bs : List Byte) (j : Nat) (hj : j < 16) :
    (setRegsFrom v k bs)[j] = if h : k ≤ j ∧ j - k < bs.length then bs[j - k]'h.2 else v[j] := by
  induction bs generalizing v k with
  | nil => simp [setRegsFrom]
  | cons b bs ih =>
    unfold setRegsFrom
    split
    · rename_i hk
      rw [ih]
      by_cases h1 : k + 1 ≤ j
      · obtain ⟨d, rfl⟩ : ∃ d, j = k + 1 + d := ⟨j - (k + 1), by omega⟩
        have e : k + 1 + d - k = d + 1 := by omega
        simp [e, show k ≤ k + 1 + d by omega, show ¬ k = k + 1 + d by omega]
      · by_cases h2 : k = j
        · subst h2; simp
        · simp [h1, show ¬ k ≤ j by omega, h2]
    · rename_i hk
      simp [show ¬ k ≤ j by omega]

/-- The registers from number `k` up, one by one. -/
theorem regsFrom_getElem (v : Vector Byte 16) (k n j : Nat) (hj : j < (regsFrom v k n).length) :
    (regsFrom v k n)[j] = v[k + j]'(by simp [regsFrom] at hj; omega) := by
  simp [regsFrom]

@[simp] theorem regsFrom_length (v : Vector Byte 16) (k n : Nat) : (regsFrom v k n).length = min n (16 - k) := by
  simp [regsFrom]

end Sys2Proof.Machine
end

