-- ==== Sys2Proof/Laws/Screen.lean ====
section
/-! SUPPORT. The framebuffer cell by cell (R110, R111, R114). -/

namespace Sys2Proof.Machine

theorem Screen.get_outside (f : Screen) {r c : Nat} (h : ¬ (r < Config.fbRows ∧ c < Config.fbCols)) :
    Screen.get f r c = false := dif_neg h

@[simp] theorem get_blankScreen (r c : Nat) : Screen.get blankScreen r c = false := by
  unfold Screen.get blankScreen
  split <;> simp

/-- A flipped cell is the other way round, clipped if it is outside the grid; every other cell stays. -/
theorem Screen.get_flip (f : Screen) (r c r' c' : Nat) :
    Screen.get (f.flip r c) r' c' =
      if r' = r ∧ c' = c ∧ r < Config.fbRows ∧ c < Config.fbCols then !f.get r' c' else f.get r' c' := by
  by_cases h : r < Config.fbRows ∧ c < Config.fbCols
  · by_cases h' : r' < Config.fbRows ∧ c' < Config.fbCols
    · simp only [Screen.flip, Screen.get, h, h', and_self, dite_true, Vector.getElem_set]
      by_cases hr : r = r'
      · subst hr
        by_cases hc : c = c'
        · subst hc; simp
        · simp [hc, Ne.symm hc]
      · simp [hr, Ne.symm hr]
    · rw [Screen.get_outside _ h', Screen.get_outside _ h', if_neg]
      rintro ⟨rfl, rfl, h1, h2⟩
      exact h' ⟨h1, h2⟩
  · rw [if_neg (by rintro ⟨-, -, h1, h2⟩; exact h ⟨h1, h2⟩)]
    simp only [Screen.flip, h, dite_false]

/-- One sprite bit, cell by cell. -/
theorem get_drawBit (on : Bool) (r c r' c' : Nat) (p : Canvas) :
    (drawBit on r c p).1.get r' c' =
      if on ∧ r' = r ∧ c' = c ∧ r < Config.fbRows ∧ c < Config.fbCols then !p.1.get r' c' else p.1.get r' c' := by
  cases on <;> simp [drawBit, Screen.get_flip]

/-- One sprite bit: a collision is kept, and a 1 bit on a set cell makes one. -/
theorem drawBit_collision (on : Bool) (r c : Nat) (p : Canvas) :
    (drawBit on r c p).2 = (p.2 || (on && p.1.get r c)) := by
  cases on <;> simp [drawBit]

/-- Two framebuffers with the same cells are the same. -/
theorem Screen.ext_get {f g : Screen} (h : ∀ r c, f.get r c = g.get r c) : f = g := by
  apply Vector.ext
  intro r hr
  apply Vector.ext
  intro c hc
  have := h r c
  simpa only [Screen.get, hr, hc, and_self, dite_true] using this

/-- The bits of a sprite byte that `drawBits` has drawn after its lowest `k`: the byte's bit for column `c` is one of them
and is 1. -/
def bitsOn (b : Byte) (cx k c : Nat) : Bool := decide (cx + (8 - k) ≤ c ∧ c < cx + 8) && b.getLsbD (7 - (c - cx))

/-- A sprite byte, cell by cell: on the grid, the cells of its 1 bits in its row are the other way round, and a collision
is kept or made by a 1 bit on a set cell. -/
theorem drawBits_spec (b : Byte) (r cx k : Nat) (hk : k ≤ 8) (p : Canvas) :
    (∀ r' c', r' < 32 → c' < 64 → (drawBits b r cx k p).1.get r' c' = (p.1.get r' c' ^^ (decide (r' = r) && bitsOn b cx k c'))) ∧
    ((drawBits b r cx k p).2 = true ↔ p.2 = true ∨ ∃ c, r < 32 ∧ c < 64 ∧ p.1.get r c = true ∧ bitsOn b cx k c = true) := by
  induction k generalizing p with
  | zero =>
    have : ∀ c, bitsOn b cx 0 c = false := by intro c; simp only [bitsOn]; rw [decide_eq_false (by omega)]; rfl
    simp [drawBits, this]
  | succ k ih =>
    obtain ⟨h1, h2⟩ := ih (by omega) (drawBit (b.getLsbD k) r (cx + (7 - k)) p)
    have hbit : ∀ c, bitsOn b cx (k+1) c = (bitsOn b cx k c || (decide (c = cx + (7-k)) && b.getLsbD k)) := by
      intro c
      by_cases hc : c = cx + (7 - k)
      · subst hc
        have : 7 - (cx + (7 - k) - cx) = k := by omega
        simp only [bitsOn, this]
        rw [decide_eq_true (by omega), decide_eq_false (by omega)]; simp
      · have : (cx + (8 - (k+1)) ≤ c ∧ c < cx + 8) ↔ (cx + (8 - k) ≤ c ∧ c < cx + 8) := by omega
        simp only [bitsOn, this, hc, decide_false, Bool.false_and, Bool.or_false]
    have hdis : bitsOn b cx k (cx + (7-k)) = false := by
      simp only [bitsOn]; rw [decide_eq_false (by omega)]; rfl
    refine ⟨?_, ?_⟩
    · intro r' c' hr hc
      simp only [drawBits]
      rw [h1 r' c' hr hc, get_drawBit, hbit]
      by_cases e : r' = r
      · subst e
        by_cases e : c' = cx + (7 - k)
        · subst e
          rw [hdis]
          cases b.getLsbD k <;> simp [Config.fbRows, Config.fbCols, hr, hc]
        · simp [e]
      · simp [e]
    · simp only [drawBits]
      rw [h2, drawBit_collision]
      constructor
      · rintro (h | ⟨c, hr, hc, hg, hb⟩)
        · simp only [Bool.or_eq_true, Bool.and_eq_true] at h
          rcases h with h | ⟨h, hg⟩
          · exact .inl h
          · right
            by_cases hh : r < 32 ∧ cx + (7-k) < 64
            · exact ⟨_, hh.1, hh.2, hg, by rw [hbit]; simp [h]⟩
            · rw [Screen.get_outside _ hh] at hg; cases hg
        · right
          refine ⟨c, hr, hc, ?_, by rw [hbit, hb]; rfl⟩
          have : c ≠ cx + (7-k) := by rintro rfl; rw [hdis] at hb; cases hb
          rw [get_drawBit] at hg; simpa [this] using hg
      · rintro (h | ⟨c, hr, hc, hg, hb⟩)
        · left; simp [h]
        · rw [hbit] at hb
          by_cases e : c = cx + (7-k)
          · subst e; left; rw [hdis] at hb; simp at hb; simp [hb, hg]
          · right; refine ⟨c, hr, hc, ?_, ?_⟩
            · rw [get_drawBit]; simpa [e] using hg
            · simpa [e] using hb

/-- The sprite's rows, anchored at row `r` and column `cx`, have a 1 bit for the cell in row `r'`, column `c'`. -/
def rowsOn (cx r : Nat) (bs : List Byte) (r' c' : Nat) : Bool := decide (r ≤ r' ∧ r' < r + bs.length) && bitsOn (bs.getD (r' - r) 0) cx 8 c'

/-- A sprite, cell by cell: on the grid, the cells of its 1 bits are the other way round, and a collision is kept or made
by a 1 bit on a cell that was on before the draw. -/
theorem drawRows_spec (cx : Nat) (bs : List Byte) (r : Nat) (p : Canvas) :
    (∀ r' c', r' < 32 → c' < 64 → (drawRows cx r bs p).1.get r' c' = (p.1.get r' c' ^^ rowsOn cx r bs r' c')) ∧
    ((drawRows cx r bs p).2 = true ↔ p.2 = true ∨ ∃ r' c, r' < 32 ∧ c < 64 ∧ p.1.get r' c = true ∧ rowsOn cx r bs r' c = true) := by
  induction bs generalizing r p with
  | nil =>
    have : ∀ r' c, rowsOn cx r [] r' c = false := by intro r' c; simp only [rowsOn, List.length_nil]; rw [decide_eq_false (by omega)]; rfl
    simp [drawRows, this]
  | cons b bs ih =>
    obtain ⟨h1, h2⟩ := ih (r+1) (drawBits b r cx 8 p)
    obtain ⟨g1, g2⟩ := drawBits_spec b r cx 8 (le_refl _) p
    have hrow : ∀ r' c, rowsOn cx r (b :: bs) r' c = (rowsOn cx (r+1) bs r' c || (decide (r' = r) && bitsOn b cx 8 c)) := by
      intro r' c
      by_cases e : r' = r
      · subst e; simp [rowsOn]
      · by_cases h : r + 1 ≤ r'
        · obtain ⟨d, rfl⟩ : ∃ d, r' = r + 1 + d := ⟨r' - (r+1), by omega⟩
          have e1 : r + 1 + d - r = d + 1 := by omega
          have e2 : r + 1 + d - (r + 1) = d := by omega
          have e3 : (r ≤ r + 1 + d ∧ r + 1 + d < r + (bs.length + 1)) ↔ (r + 1 ≤ r + 1 + d ∧ r + 1 + d < r + 1 + bs.length) := by omega
          simp only [rowsOn, e1, e2, List.length_cons, List.getD_cons_succ, e, decide_false, Bool.false_and, Bool.or_false, e3]
        · have e3 : ¬ (r ≤ r' ∧ r' < r + (bs.length + 1)) := by omega
          have e4 : ¬ (r + 1 ≤ r' ∧ r' < r + 1 + bs.length) := by omega
          simp only [rowsOn, List.length_cons, e, e3, e4, decide_false, Bool.false_and, Bool.or_false]
    have hdis : ∀ c, rowsOn cx (r+1) bs r c = false := by
      intro c; simp only [rowsOn]; rw [decide_eq_false (by omega)]; rfl
    refine ⟨?_, ?_⟩
    · intro r' c' hr hc
      simp only [drawRows]
      rw [h1 r' c' hr hc, g1 r' c' hr hc, hrow]
      by_cases e : r' = r
      · subst e; rw [hdis]; simp
      · simp [e]
    · simp only [drawRows]
      rw [h2, g2]
      constructor
      · rintro ((h | ⟨c, hr, hc, hg, hb⟩) | ⟨r', c, hr, hc, hg, hb⟩)
        · exact .inl h
        · exact .inr ⟨r, c, hr, hc, hg, by rw [hrow]; simp [hb]⟩
        · right; refine ⟨r', c, hr, hc, ?_, by rw [hrow]; simp [hb]⟩
          have : r' ≠ r := by rintro rfl; rw [hdis] at hb; cases hb
          rw [g1 _ _ hr hc] at hg; simpa [this] using hg
      · rintro (h | ⟨r', c, hr, hc, hg, hb⟩)
        · exact .inl (.inl h)
        · rw [hrow] at hb
          by_cases e : r' = r
          · subst e; rw [hdis] at hb; simp at hb; exact .inl (.inr ⟨c, hr, hc, hg, hb⟩)
          · right; refine ⟨r', c, hr, hc, ?_, ?_⟩
            · rw [g1 _ _ hr hc]; simpa [e] using hg
            · simpa [e] using hb

end Sys2Proof.Machine
end

