-- ==== Sys2Proof/Laws/Exec.lean ====
section
/-! SUPPORT. What running an instruction and a step can do, said once (R65 to R74, R127). -/

namespace Sys2Proof.Machine

/-- An instruction that cannot raise completes, with its rule run on the advanced state. -/
theorem perform_eq (i : Instr) (rule : State → State) (s : State) :
    perform i rule s = .next (rule (advance (encode i) s)) := rfl

/-- An instruction that can raise: either its rule answers, or the fault is taken from the state before the step. -/
theorem performOrRaise_cases (i : Instr) (rule : State → Except FaultSignal State) (s : State) :
    (∃ t, rule (advance (encode i) s) = .ok t ∧ performOrRaise i rule s = .next t) ∨
    (∃ e, rule (advance (encode i) s) = .error e ∧ performOrRaise i rule s = .next (raise e (encode i) s)) := by
  unfold performOrRaise
  split
  · exact .inl ⟨_, ‹_›, rfl⟩
  · exact .inr ⟨_, ‹_›, rfl⟩

theorem performOrRaise_ok {i : Instr} {rule : State → Except FaultSignal State} {s t : State}
    (h : rule (advance (encode i) s) = .ok t) : performOrRaise i rule s = .next t := by
  simp only [performOrRaise, h]

theorem performOrRaise_error {i : Instr} {rule : State → Except FaultSignal State} {s : State} {e : FaultSignal}
    (h : rule (advance (encode i) s) = .error e) : performOrRaise i rule s = .next (raise e (encode i) s) := by
  simp only [performOrRaise, h]

/-- A push: a free slot takes the address and `SP` goes up, or the stack overflows. -/
theorem push_cases (a : Word) (s : State) :
    (∃ h : s.sp.val < Config.stackDepth,
      push a s = .ok { s with stack := s.stack.set s.sp.val a h, sp := ⟨s.sp.val + 1, Nat.succ_lt_succ h⟩ }) ∨
    (s.sp.val = Config.stackDepth ∧ push a s = .error ⟨.stackOverflow, none⟩) := by
  by_cases h : s.sp.val < Config.stackDepth
  · exact .inl ⟨h, dif_pos h⟩
  · exact .inr ⟨by have := s.sp.isLt; omega, dif_neg h⟩

/-- A pop: `SP` goes down and the newest slot goes to `PC`, or the stack underflows. -/
theorem popToPc_cases (s : State) :
    (∃ (h : s.sp.val - 1 < Config.stackDepth), 0 < s.sp.val ∧
      popToPc s = .ok { s with sp := ⟨s.sp.val - 1, Nat.lt_succ_of_lt h⟩, pc := s.stack[s.sp.val - 1] }) ∨
    (s.sp.val = 0 ∧ popToPc s = .error ⟨.stackUnderflow, none⟩) := by
  by_cases h : 0 < s.sp.val
  · exact .inl ⟨by have := s.sp.isLt; omega, h, dif_pos h⟩
  · exact .inr ⟨by omega, dif_neg h⟩

/-- One count of a timer, as a number. -/
theorem countDown_toNat (b : Byte) : (countDown b).toNat = b.toNat - 1 := by revert b; decide

/-- The end of the dispatch phase of a running machine is the timer phase. -/
theorem finish_running {t : State} (h : t.status = .running) : finish t = timerPhase t := by
  simp only [finish, h]

/-- The end of the dispatch phase of a faulted machine changes nothing. -/
theorem finish_faulted {t : State} {c : Fault} (h : t.status = .faulted c) : finish t = t := by
  simp only [finish, h]

/-- A faulted core is inert. -/
theorem step_faulted {s : State} {c : Fault} (h : s.status = .faulted c) : step s = .next (clearOutputs s) := by
  simp only [step, cycle, h]

/-- A running core runs one cycle from the state whose inputs are sampled. -/
theorem step_running {s : State} (h : s.status = .running) :
    step s = runCycle (beginStep (nextInput s.env) { s with env := s.env.drawn }) := by
  simp only [step, cycle, stepWith, h]

end Sys2Proof.Machine
end

