-- ==== Sys2Proof/Laws/PerInstr.lean ====
section
/-! SUPPORT. Per-instruction statements over the syntax: `TableMatch`, that the encoding of an instruction is a word of
its own row of the opcode table (R51). -/

namespace Sys2Proof.Laws

/-- The encoding of `i` is a word of the row of the opcode table that has `i`'s mnemonic. -/
def TableMatch.Statement (i : Instr) : Prop :=
  ∃ r ∈ opcodeTable, r.mnemonic = i.mnemonic ∧ r.hits (encode i) = true

/-- Masking a format-A word with 0xF000 leaves its primary code. -/
theorem TableMatch.mask_formatA (op : Nibble) (nnn : Addr12) : formatA op nnn &&& 0xF000#16 = formatA op 0 := by
  apply BitVec.eq_of_getLsbD_eq
  intro i hi
  simp [formatA, hi]
  interval_cases i <;> simp

/-- Masking a word of a primary code, a nibble and a byte with 0xF000 leaves the primary code. -/
theorem TableMatch.mask_formatXK (op x : Nibble) (kk : Byte) : formatXK op x kk &&& 0xF000#16 = formatXK op 0 0 := by
  apply BitVec.eq_of_getLsbD_eq
  intro i hi
  simp [formatXK, hi]
  interval_cases i <;> simp

/-- Masking with 0xF0FF drops the nibble in bits 11:8. -/
theorem TableMatch.mask_formatXS (op x : Nibble) (kk : Byte) : formatXK op x kk &&& 0xF0FF#16 = formatXK op 0 kk := by
  apply BitVec.eq_of_getLsbD_eq
  intro i hi
  simp [formatXK, hi]
  interval_cases i <;> simp

/-- Masking a word of four nibbles with 0xF00F drops the middle two. -/
theorem TableMatch.mask_formatXY (op x y n : Nibble) :
    formatXYN op x y n &&& 0xF00F#16 = formatXYN op 0 0 n := by
  apply BitVec.eq_of_getLsbD_eq
  intro i hi
  simp [formatXYN, hi]
  interval_cases i <;> simp

/-- Masking a word of four nibbles with 0xF000 leaves the primary code. -/
theorem TableMatch.mask_formatXYN (op x y n : Nibble) :
    formatXYN op x y n &&& 0xF000#16 = formatXYN op 0 0 0 := by
  apply BitVec.eq_of_getLsbD_eq
  intro i hi
  simp [formatXYN, hi]
  interval_cases i <;> simp

theorem TableMatch.cls (z : Nibble) : Statement (.cls z) :=
  ⟨⟨"CLS", 0xF0FF#16, 0x00E0#16⟩, by decide, rfl, by
    rw [TableRow.hits, encode, mask_formatXS]; rfl⟩

theorem TableMatch.ret (z : Nibble) : Statement (.ret z) :=
  ⟨⟨"RET", 0xF0FF#16, 0x00EE#16⟩, by decide, rfl, by
    rw [TableRow.hits, encode, mask_formatXS]; rfl⟩

theorem TableMatch.jp (nnn : Addr12) : Statement (.jp nnn) :=
  ⟨⟨"JP_nnn", 0xF000#16, 0x1000#16⟩, by decide, rfl, by
    rw [TableRow.hits, encode, mask_formatA]; rfl⟩

theorem TableMatch.call (nnn : Addr12) : Statement (.call nnn) :=
  ⟨⟨"CALL_nnn", 0xF000#16, 0x2000#16⟩, by decide, rfl, by
    rw [TableRow.hits, encode, mask_formatA]; rfl⟩

theorem TableMatch.seImm (x : Nibble) (kk : Byte) : Statement (.seImm x kk) :=
  ⟨⟨"SE_Vx__kk", 0xF000#16, 0x3000#16⟩, by decide, rfl, by
    rw [TableRow.hits, encode, mask_formatXK]; rfl⟩

theorem TableMatch.sneImm (x : Nibble) (kk : Byte) : Statement (.sneImm x kk) :=
  ⟨⟨"SNE_Vx__kk", 0xF000#16, 0x4000#16⟩, by decide, rfl, by
    rw [TableRow.hits, encode, mask_formatXK]; rfl⟩

theorem TableMatch.seReg (x y n : Nibble) : Statement (.seReg x y n) :=
  ⟨⟨"SE_Vx__Vy", 0xF000#16, 0x5000#16⟩, by decide, rfl, by
    rw [TableRow.hits, encode, mask_formatXYN]; rfl⟩

theorem TableMatch.ldImm (x : Nibble) (kk : Byte) : Statement (.ldImm x kk) :=
  ⟨⟨"LD_Vx__kk", 0xF000#16, 0x6000#16⟩, by decide, rfl, by
    rw [TableRow.hits, encode, mask_formatXK]; rfl⟩

theorem TableMatch.addImm (x : Nibble) (kk : Byte) : Statement (.addImm x kk) :=
  ⟨⟨"ADD_Vx__kk", 0xF000#16, 0x7000#16⟩, by decide, rfl, by
    rw [TableRow.hits, encode, mask_formatXK]; rfl⟩

theorem TableMatch.ldReg (x y : Nibble) : Statement (.ldReg x y) :=
  ⟨⟨"LD_Vx__Vy", 0xF00F#16, 0x8000#16⟩, by decide, rfl, by
    rw [TableRow.hits, encode, mask_formatXY]; rfl⟩

theorem TableMatch.orReg (x y : Nibble) : Statement (.orReg x y) :=
  ⟨⟨"OR_Vx__Vy", 0xF00F#16, 0x8001#16⟩, by decide, rfl, by
    rw [TableRow.hits, encode, mask_formatXY]; rfl⟩

theorem TableMatch.andReg (x y : Nibble) : Statement (.andReg x y) :=
  ⟨⟨"AND_Vx__Vy", 0xF00F#16, 0x8002#16⟩, by decide, rfl, by
    rw [TableRow.hits, encode, mask_formatXY]; rfl⟩

theorem TableMatch.xorReg (x y : Nibble) : Statement (.xorReg x y) :=
  ⟨⟨"XOR_Vx__Vy", 0xF00F#16, 0x8003#16⟩, by decide, rfl, by
    rw [TableRow.hits, encode, mask_formatXY]; rfl⟩

theorem TableMatch.addReg (x y : Nibble) : Statement (.addReg x y) :=
  ⟨⟨"ADD_Vx__Vy", 0xF00F#16, 0x8004#16⟩, by decide, rfl, by
    rw [TableRow.hits, encode, mask_formatXY]; rfl⟩

theorem TableMatch.sub (x y : Nibble) : Statement (.sub x y) :=
  ⟨⟨"SUB_Vx__Vy", 0xF00F#16, 0x8005#16⟩, by decide, rfl, by
    rw [TableRow.hits, encode, mask_formatXY]; rfl⟩

theorem TableMatch.shr (x y : Nibble) : Statement (.shr x y) :=
  ⟨⟨"SHR_Vx", 0xF00F#16, 0x8006#16⟩, by decide, rfl, by
    rw [TableRow.hits, encode, mask_formatXY]; rfl⟩

theorem TableMatch.subn (x y : Nibble) : Statement (.subn x y) :=
  ⟨⟨"SUBN_Vx__Vy", 0xF00F#16, 0x8007#16⟩, by decide, rfl, by
    rw [TableRow.hits, encode, mask_formatXY]; rfl⟩

theorem TableMatch.shl (x y : Nibble) : Statement (.shl x y) :=
  ⟨⟨"SHL_Vx", 0xF00F#16, 0x800E#16⟩, by decide, rfl, by
    rw [TableRow.hits, encode, mask_formatXY]; rfl⟩

theorem TableMatch.sneReg (x y n : Nibble) : Statement (.sneReg x y n) :=
  ⟨⟨"SNE_Vx__Vy", 0xF000#16, 0x9000#16⟩, by decide, rfl, by
    rw [TableRow.hits, encode, mask_formatXYN]; rfl⟩

theorem TableMatch.ldI (nnn : Addr12) : Statement (.ldI nnn) :=
  ⟨⟨"LD_I__nnn", 0xF000#16, 0xA000#16⟩, by decide, rfl, by
    rw [TableRow.hits, encode, mask_formatA]; rfl⟩

theorem TableMatch.jpV0 (nnn : Addr12) : Statement (.jpV0 nnn) :=
  ⟨⟨"JP_V0__nnn", 0xF000#16, 0xB000#16⟩, by decide, rfl, by
    rw [TableRow.hits, encode, mask_formatA]; rfl⟩

theorem TableMatch.rnd (x : Nibble) (kk : Byte) : Statement (.rnd x kk) :=
  ⟨⟨"RND_Vx__kk", 0xF000#16, 0xC000#16⟩, by decide, rfl, by
    rw [TableRow.hits, encode, mask_formatXK]; rfl⟩

theorem TableMatch.drw (x y n : Nibble) : Statement (.drw x y n) :=
  ⟨⟨"DRW_Vx__Vy__n", 0xF000#16, 0xD000#16⟩, by decide, rfl, by
    rw [TableRow.hits, encode, mask_formatXYN]; rfl⟩

theorem TableMatch.skp (x : Nibble) : Statement (.skp x) :=
  ⟨⟨"SKP_Vx", 0xF0FF#16, 0xE09E#16⟩, by decide, rfl, by
    rw [TableRow.hits, encode, mask_formatXS]; rfl⟩

theorem TableMatch.sknp (x : Nibble) : Statement (.sknp x) :=
  ⟨⟨"SKNP_Vx", 0xF0FF#16, 0xE0A1#16⟩, by decide, rfl, by
    rw [TableRow.hits, encode, mask_formatXS]; rfl⟩

theorem TableMatch.ldVxDT (x : Nibble) : Statement (.ldVxDT x) :=
  ⟨⟨"LD_Vx__DT", 0xF0FF#16, 0xF007#16⟩, by decide, rfl, by
    rw [TableRow.hits, encode, mask_formatXS]; rfl⟩

theorem TableMatch.ldVxK (x : Nibble) : Statement (.ldVxK x) :=
  ⟨⟨"LD_Vx__K", 0xF0FF#16, 0xF00A#16⟩, by decide, rfl, by
    rw [TableRow.hits, encode, mask_formatXS]; rfl⟩

theorem TableMatch.ldDTVx (x : Nibble) : Statement (.ldDTVx x) :=
  ⟨⟨"LD_DT__Vx", 0xF0FF#16, 0xF015#16⟩, by decide, rfl, by
    rw [TableRow.hits, encode, mask_formatXS]; rfl⟩

theorem TableMatch.ldSTVx (x : Nibble) : Statement (.ldSTVx x) :=
  ⟨⟨"LD_ST__Vx", 0xF0FF#16, 0xF018#16⟩, by decide, rfl, by
    rw [TableRow.hits, encode, mask_formatXS]; rfl⟩

theorem TableMatch.addI (x : Nibble) : Statement (.addI x) :=
  ⟨⟨"ADD_I__Vx", 0xF0FF#16, 0xF01E#16⟩, by decide, rfl, by
    rw [TableRow.hits, encode, mask_formatXS]; rfl⟩

theorem TableMatch.ldF (x : Nibble) : Statement (.ldF x) :=
  ⟨⟨"LD_F__Vx", 0xF0FF#16, 0xF029#16⟩, by decide, rfl, by
    rw [TableRow.hits, encode, mask_formatXS]; rfl⟩

theorem TableMatch.ldB (x : Nibble) : Statement (.ldB x) :=
  ⟨⟨"LD_B__Vx", 0xF0FF#16, 0xF033#16⟩, by decide, rfl, by
    rw [TableRow.hits, encode, mask_formatXS]; rfl⟩

theorem TableMatch.stRegs (x : Nibble) : Statement (.stRegs x) :=
  ⟨⟨"LD__I___Vx", 0xF0FF#16, 0xF055#16⟩, by decide, rfl, by
    rw [TableRow.hits, encode, mask_formatXS]; rfl⟩

theorem TableMatch.ldRegs (x : Nibble) : Statement (.ldRegs x) :=
  ⟨⟨"LD_Vx___I", 0xF0FF#16, 0xF065#16⟩, by decide, rfl, by
    rw [TableRow.hits, encode, mask_formatXS]; rfl⟩

end Sys2Proof.Laws
end

