-- ==== Sys2Proof/Laws/Safety.lean ====
section
/-! SUPPORT. When an instruction raises, as conditions on `I` and `SP` (R125, R129 to R131). -/

namespace Sys2Proof.Machine

/-- A block at `I` that does not run past memory is empty or ends inside it. -/
theorem pastEnd_none {s : State} {n : Nat} (h : pastEnd s n = none) : n = 0 ∨ s.idx.toNat + n ≤ Config.memSize := by
  unfold pastEnd at h
  split at h
  · cases h
  · show n = 0 ∨ s.idx.toNat + n ≤ 4096
    omega

/-- A block at `I` that runs past memory signals as its first access outside does. -/
theorem pastEnd_some {s : State} {n : Nat} {e : FaultSignal} (h : pastEnd s n = some e) :
    0 < n ∧ Config.memSize < s.idx.toNat + n ∧
      e = Sys2Proof.Machine.outOfBounds (max s.idx.toNat Config.memSize) := by
  unfold pastEnd at h
  split at h
  · rename_i hn
    cases h
    exact ⟨hn.1, hn.2, congrArg (FaultSignal.mk .outOfBoundsData) (outOfBounds_max_idx s).symm⟩
  · cases h

/-- Whether an instruction raises depends on `I` and `SP` alone. -/
theorem raises_congr (i : Instr) {s t : State} (hi : t.idx = s.idx) (hp : t.sp = s.sp) : raises i t = raises i s := by
  cases i <;> simp only [raises, pastEnd, hi, hp]

/-- No instruction raises the fault of the fetch (R128). -/
theorem raises_ne_fetch {i : Instr} {s : State} {e : FaultSignal} (h : raises i s = some e) :
    e.cause ≠ .outOfBoundsFetch := by
  intro hc
  cases i <;> simp only [raises, pastEnd] at h <;> first | (split at h <;> cases h <;> cases hc) | cases h

end Sys2Proof.Machine
end

