-- ==== Sys2Proof/Tests/Slice0.lean ====
section
/-! SUPPORT. The session's own tests. Expected results come from spec/: the worked examples of 41 to 45 and the vectors
of 95_test_vectors.md, named in each comment. The last part shows, for each obligation with hypotheses, a concrete state
and operands that meet them. -/

namespace Sys2Proof.Tests

open Sys2Proof Sys2Proof.Machine

/-! ### Helpers -/

/-- No key and a random byte of 0. -/
def quiet : StepInput := { keysHeld := 0, keyPress := none, randByte := 0 }

/-- The state after reset with some general registers written. -/
def regs (l : List (Nibble × Byte)) : State := l.foldl (fun s p => writeV p.1 p.2 s) State.reset

/-- `s` with some bytes of memory written. -/
def bytes (l : List (Nat × Byte)) (s : State) : State :=
  { s with mem := l.foldl (fun m p => m.set p.1 p.2) s.mem }

/-- `s` with some cells of the framebuffer turned on. -/
def pixels (l : List (Nat × Nat)) (s : State) : State := { s with fb := l.foldl (fun f p => f.flip p.1 p.2) s.fb }

/-- The state one step after `w` is placed where `s` fetches next. -/
def afterStep (w : Word) (input : StepInput) (s : State) : Option State :=
  match stepWith input (placeWord w s) with
  | .next t => some t
  | .fault _ => none
  | .refused _ => none

/-- What `f` reads in that state. -/
def seen {α : Type} (w : Word) (input : StepInput) (s : State) (f : State → α) : Option α := (afterStep w input s).map f

/-! ### WellFormed: an ill-formed term for each check -/

theorem test_canonical_refuses_cls_alias : (Instr.cls 3).canonical = false := by decide
theorem test_canonical_refuses_ret_alias : (Instr.ret 0xA).canonical = false := by decide
theorem test_canonical_refuses_seReg_alias : (Instr.seReg 1 2 0xF).canonical = false := by decide
theorem test_canonical_refuses_sneReg_alias : (Instr.sneReg 3 3 7).canonical = false := by decide
theorem test_canonical_accepts_table_spellings :
    (Instr.cls 0).canonical = true ∧ (Instr.ret 0).canonical = true ∧ (Instr.seReg 1 2 0).canonical = true ∧
    (Instr.sneReg 3 3 0).canonical = true ∧ (Instr.shr 1 2).canonical = true := by decide
theorem test_imageFits_refuses_one_byte_too_many : imageFits (List.replicate 3585 0) = false := by
  rw [imageFits, List.length_replicate]; decide
theorem test_imageFits_accepts_the_largest : imageFits (List.replicate 3584 0) = true := by
  rw [imageFits, List.length_replicate]; decide

/-! ### Decode: one word of each row, written from the masks and fields of 30_encoding.md (R51 to R53) -/

theorem test_decode_cls : decodeWord 0b0000_0000_1110_0000#16 = some (.cls 0) := by decide
theorem test_decode_ret : decodeWord 0b0000_0000_1110_1110#16 = some (.ret 0) := by decide
theorem test_decode_jp : decodeWord 0b0001_0010_0011_0100#16 = some (.jp 0x234) := by decide
theorem test_decode_call : decodeWord 0b0010_0010_0000_1000#16 = some (.call 0x208) := by decide
theorem test_decode_seImm : decodeWord 0b0011_0011_0010_1010#16 = some (.seImm 3 0x2A) := by decide
theorem test_decode_sneImm : decodeWord 0b0100_1011_0000_0001#16 = some (.sneImm 0xB 0x01) := by decide
theorem test_decode_seReg : decodeWord 0b0101_0001_0010_0000#16 = some (.seReg 1 2 0) := by decide
theorem test_decode_ldImm : decodeWord 0b0110_1111_1010_1011#16 = some (.ldImm 0xF 0xAB) := by decide
theorem test_decode_addImm : decodeWord 0b0111_0001_0010_0000#16 = some (.addImm 1 0x20) := by decide
theorem test_decode_ldReg : decodeWord 0b1000_1010_1011_0000#16 = some (.ldReg 0xA 0xB) := by decide
theorem test_decode_orReg : decodeWord 0b1000_0001_0010_0001#16 = some (.orReg 1 2) := by decide
theorem test_decode_andReg : decodeWord 0b1000_0001_0010_0010#16 = some (.andReg 1 2) := by decide
theorem test_decode_xorReg : decodeWord 0b1000_0001_0010_0011#16 = some (.xorReg 1 2) := by decide
theorem test_decode_addReg : decodeWord 0b1000_0000_0001_0100#16 = some (.addReg 0 1) := by decide
theorem test_decode_sub : decodeWord 0b1000_1111_0001_0101#16 = some (.sub 0xF 1) := by decide
theorem test_decode_shr : decodeWord 0b1000_0001_0010_0110#16 = some (.shr 1 2) := by decide
theorem test_decode_subn : decodeWord 0b1000_0000_0001_0111#16 = some (.subn 0 1) := by decide
theorem test_decode_shl : decodeWord 0b1000_0001_0010_1110#16 = some (.shl 1 2) := by decide
theorem test_decode_sneReg : decodeWord 0b1001_0001_0010_0000#16 = some (.sneReg 1 2 0) := by decide
theorem test_decode_ldI : decodeWord 0b1010_0010_1111_0000#16 = some (.ldI 0x2F0) := by decide
theorem test_decode_jpV0 : decodeWord 0b1011_1111_1111_1111#16 = some (.jpV0 0xFFF) := by decide
theorem test_decode_rnd : decodeWord 0b1100_0011_0000_1111#16 = some (.rnd 3 0x0F) := by decide
theorem test_decode_drw : decodeWord 0b1101_0001_0010_0101#16 = some (.drw 1 2 5) := by decide
theorem test_decode_skp : decodeWord 0b1110_0010_1001_1110#16 = some (.skp 2) := by decide
theorem test_decode_sknp : decodeWord 0b1110_0010_1010_0001#16 = some (.sknp 2) := by decide
theorem test_decode_ldVxDT : decodeWord 0b1111_0011_0000_0111#16 = some (.ldVxDT 3) := by decide
theorem test_decode_ldVxK : decodeWord 0b1111_0101_0000_1010#16 = some (.ldVxK 5) := by decide
theorem test_decode_ldDTVx : decodeWord 0b1111_0011_0001_0101#16 = some (.ldDTVx 3) := by decide
theorem test_decode_ldSTVx : decodeWord 0b1111_0011_0001_1000#16 = some (.ldSTVx 3) := by decide
theorem test_decode_addI : decodeWord 0b1111_0010_0001_1110#16 = some (.addI 2) := by decide
theorem test_decode_ldF : decodeWord 0b1111_0100_0010_1001#16 = some (.ldF 4) := by decide
theorem test_decode_ldB : decodeWord 0b1111_0011_0011_0011#16 = some (.ldB 3) := by decide
theorem test_decode_stRegs : decodeWord 0b1111_0010_0101_0101#16 = some (.stRegs 2) := by decide
theorem test_decode_ldRegs : decodeWord 0b1111_0010_0110_0101#16 = some (.ldRegs 2) := by decide

/-- Words outside R55, one for each family that has any (30_encoding.md R57). -/
theorem test_decode_unrecognized :
    [0x0000#16, 0x0123#16, 0x8128#16, 0x801F#16, 0xE29F#16, 0xF0FF#16, 0xF175#16].map decodeWord =
      List.replicate 7 none := by decide

/-- Two bytes are a word, the first high (R43); the rest is handed back, and one byte is no instruction. -/
theorem test_decode_bytes :
    decodeBytes [0x60, 0x05, 0x61] = .ok (.ldImm 0 5, [0x61]) ∧ decodeBytes [0x60] = .error .truncated ∧
    decodeBytes [0x81, 0x28] = .error (.unrecognized 0x8128#16) := by
  refine ⟨?_, ?_, ?_⟩ <;> rfl

/-- The rows' own words, bits numbered as the opcode table numbers them. -/
theorem test_decode_table_words :
    decodeTableWord 16 0x00E0 = some (.cls 0) ∧ decodeTableWord 16 0xD000 = some (.drw 0 0 0) ∧
    decodeTableWord 16 0xF065 = some (.ldRegs 0) ∧ decodeTableWord 16 0x8008 = none := by decide

/-- A row's word is fetched and run by the next step of the reset machine. -/
theorem test_withFetchWord :
    fetchWord (State.reset.withFetchWord 16 0x6F12) = 0x6F12#16 ∧ (State.reset.withFetchWord 16 0x6F12).mem.wf = true :=
  by decide

/-- No two rows of the opcode table share a word (R54, C8). -/
theorem test_table_rows_disjoint :
    opcodeTable.Pairwise (fun r q => (r.value ^^^ q.value) &&& (r.mask &&& q.mask) ≠ 0#16) := by decide

/-! ### One step of each instruction (41 to 45 and the vectors T, A, I, FB, K, S of 95_test_vectors.md) -/

/-- FB1 -/
theorem test_cls_clears : seen 0x00E0#16 quiet (pixels [(0, 0), (5, 7), (31, 63)] State.reset)
    (fun t => (t.pc, t.fb.get 0 0, t.fb.get 5 7, t.fb.get 31 63)) =
    some (0x202#16, false, false, false) := by decide

/-- T2: an alias of `00EE` returns -/
theorem test_ret_pops : seen 0x0AEE#16 quiet ({ State.reset with sp := 2, pc := 0x400, stack := (State.reset.stack.set 0 0x0202).set 1 0x0304 })
    (fun t => (t.pc, t.sp)) =
    some (0x304#16, 1) := by decide

/-- T3 -/
theorem test_ret_underflows : seen 0x00EE#16 quiet (State.reset)
    (fun t => (t.pc, t.status, t.faultInfo)) =
    some (0x200#16, .faulted .stackUnderflow, ⟨0x200, 0x00EE, none⟩) := by decide

/-- T4 -/
theorem test_jp : seen 0x1234#16 quiet (State.reset)
    (fun t => t.pc) =
    some 0x234#16 := by decide

/-- T6: an odd target is legal -/
theorem test_jp_odd : seen 0x1FFF#16 quiet (State.reset)
    (fun t => t.pc) =
    some 0xFFF#16 := by decide

/-- T7 -/
theorem test_call_pushes : seen 0x2208#16 quiet (State.reset)
    (fun t => (t.pc, t.sp, t.stack[0])) =
    some (0x208#16, 1, 0x202#16) := by decide

/-- T9 -/
theorem test_call_overflows : seen 0x2300#16 quiet ({ State.reset with sp := 16 })
    (fun t => (t.pc, t.sp, t.status, t.faultInfo)) =
    some (0x200#16, 16, .faulted .stackOverflow, ⟨0x200, 0x2300, none⟩) := by decide

/-- T10 -/
theorem test_seImm_skips : seen 0x332A#16 quiet (regs [(3, 0x2A)])
    (fun t => t.pc) =
    some 0x204#16 := by decide

/-- T11 -/
theorem test_seImm_falls_through : seen 0x332A#16 quiet (regs [(3, 0x2B)])
    (fun t => t.pc) =
    some 0x202#16 := by decide

/-- T12 -/
theorem test_sneImm_falls_through : seen 0x432A#16 quiet (regs [(3, 0x2A)])
    (fun t => t.pc) =
    some 0x202#16 := by decide

/-- T13 -/
theorem test_sneImm_skips : seen 0x4300#16 quiet (regs [(3, 0x2A)])
    (fun t => t.pc) =
    some 0x204#16 := by decide

/-- T14 -/
theorem test_seReg_skips : seen 0x5120#16 quiet (regs [(1, 7), (2, 7)])
    (fun t => t.pc) =
    some 0x204#16 := by decide

/-- T15 -/
theorem test_seReg_alias_falls_through : seen 0x512F#16 quiet (regs [(1, 7), (2, 8)])
    (fun t => t.pc) =
    some 0x202#16 := by decide

/-- T17 -/
theorem test_sneReg_skips : seen 0x9120#16 quiet (regs [(1, 7), (2, 8)])
    (fun t => t.pc) =
    some 0x204#16 := by decide

/-- T19 -/
theorem test_sneReg_alias_same_register : seen 0x9337#16 quiet (regs [(3, 1)])
    (fun t => t.pc) =
    some 0x202#16 := by decide

/-- T21 -/
theorem test_jpV0_exceeds_12_bits : seen 0xBFFF#16 quiet (regs [(0, 0xFF)])
    (fun t => t.pc) =
    some 0x10FE#16 := by decide

/-- A2 -/
theorem test_ldImm_to_flag_register : seen 0x6FAB#16 quiet (State.reset)
    (fun t => (readV t 15, t.pc)) =
    some (0xAB#8, 0x202#16) := by decide

/-- A4 -/
theorem test_addImm_wraps_without_flag : seen 0x7101#16 quiet (regs [(1, 0xFF), (15, 1)])
    (fun t => (readV t 1, readV t 15)) =
    some (0#8, 1#8) := by decide

/-- A6 -/
theorem test_ldReg : seen 0x8120#16 quiet (regs [(2, 0x7C)])
    (fun t => (readV t 1, readV t 2)) =
    some (0x7C#8, 0x7C#8) := by decide

/-- A7 -/
theorem test_orReg_keeps_flag : seen 0x8121#16 quiet (regs [(1, 0xF0), (2, 0x3C), (15, 1)])
    (fun t => (readV t 1, readV t 15)) =
    some (0xFC#8, 1#8) := by decide

/-- A8 -/
theorem test_andReg : seen 0x8122#16 quiet (regs [(1, 0xF0), (2, 0x3C)])
    (fun t => readV t 1) =
    some 0x30#8 := by decide

/-- A9 -/
theorem test_xorReg : seen 0x8123#16 quiet (regs [(1, 0xF0), (2, 0x3C)])
    (fun t => readV t 1) =
    some 0xCC#8 := by decide

/-- A12 -/
theorem test_addReg_carries : seen 0x8014#16 quiet (regs [(0, 0xFF), (1, 2)])
    (fun t => (readV t 0, readV t 15)) =
    some (1#8, 1#8) := by decide

/-- A15: the flag remains -/
theorem test_addReg_flag_register_as_destination : seen 0x8F14#16 quiet (regs [(1, 0x20), (15, 0xF0)])
    (fun t => readV t 15) =
    some 1#8 := by decide

/-- A19 -/
theorem test_sub_borrows : seen 0x8015#16 quiet (regs [(0, 3), (1, 5)])
    (fun t => (readV t 0, readV t 15)) =
    some (0xFE#8, 0#8) := by decide

/-- A20 -/
theorem test_sub_equal : seen 0x8015#16 quiet (regs [(0, 7), (1, 7)])
    (fun t => (readV t 0, readV t 15)) =
    some (0#8, 1#8) := by decide

/-- A24 -/
theorem test_shr_ignores_y : seen 0x8126#16 quiet (regs [(1, 0xFF), (2, 0)])
    (fun t => (readV t 1, readV t 15)) =
    some (0x7F#8, 1#8) := by decide

/-- A23 -/
theorem test_shr_even : seen 0x8106#16 quiet (regs [(1, 0x86), (15, 1)])
    (fun t => (readV t 1, readV t 15)) =
    some (0x43#8, 0#8) := by decide

/-- A27 -/
theorem test_subn : seen 0x8017#16 quiet (regs [(0, 3), (1, 8)])
    (fun t => (readV t 0, readV t 15)) =
    some (5#8, 1#8) := by decide

/-- A28 -/
theorem test_subn_borrows : seen 0x8017#16 quiet (regs [(0, 8), (1, 3)])
    (fun t => (readV t 0, readV t 15)) =
    some (0xFB#8, 0#8) := by decide

/-- A30 -/
theorem test_shl : seen 0x810E#16 quiet (regs [(1, 0x80)])
    (fun t => (readV t 1, readV t 15)) =
    some (0#8, 1#8) := by decide

/-- A31 -/
theorem test_shl_no_bit_lost : seen 0x810E#16 quiet (regs [(1, 0x41), (15, 1)])
    (fun t => (readV t 1, readV t 15)) =
    some (0x82#8, 0#8) := by decide

/-- A34 -/
theorem test_rnd_masks : seen 0xC30F#16 { quiet with randByte := 0xB7 } (State.reset)
    (fun t => readV t 3) =
    some 0x07#8 := by decide

/-- I2 -/
theorem test_ldI : seen 0xAFFF#16 quiet (State.reset)
    (fun t => t.idx) =
    some 0xFFF#16 := by decide

/-- I5 -/
theorem test_addI_overflow_flag : seen 0xF21E#16 quiet ({ regs [(2, 1)] with idx := 0x0FFF })
    (fun t => (t.idx, readV t 15)) =
    some (0x1000#16, 1#8) := by decide

/-- I7 -/
theorem test_addI_flag_register_as_operand : seen 0xFF1E#16 quiet ({ regs [(15, 0x20)] with idx := 0x0100 })
    (fun t => (t.idx, readV t 15)) =
    some (0x120#16, 0#8) := by decide

/-- I10 -/
theorem test_ldF_low_nibble : seen 0xF429#16 quiet (regs [(4, 0x1F)])
    (fun t => t.idx) =
    some 0x9B#16 := by decide

/-- I14: the last place the digits fit -/
theorem test_ldB : seen 0xF333#16 quiet ({ regs [(3, 0x64)] with idx := 0x0FFD })
    (fun t => (t.mem.get 0xFFD, t.mem.get 0xFFE, t.mem.get 0xFFF, t.mem)) =
    some (1#8, 0#8, 0#8, [(0x200, 0xF3), (0x201, 0x33), (0xFFD, 1)]) := by decide

/-- I15: nothing is stored -/
theorem test_ldB_out_of_bounds : seen 0xF333#16 quiet ({ regs [(3, 0x64)] with idx := 0x0FFE })
    (fun t => (t.mem.get 0xFFE, t.status, t.faultInfo)) =
    some (0#8, .faulted .outOfBoundsData, ⟨0x200, 0xF333, some 0x1000⟩) := by decide

/-- I16 -/
theorem test_stRegs : seen 0xF255#16 quiet ({ regs [(0, 0x11), (1, 0x22), (2, 0x33), (3, 0x44)] with idx := 0x0400 })
    (fun t => (t.mem.get 0x400, t.mem.get 0x401, t.mem.get 0x402, t.mem.get 0x403, t.idx)) =
    some (0x11#8, 0x22#8, 0x33#8, 0#8, 0x400#16) := by decide

/-- I18: the byte that fits is not stored either -/
theorem test_stRegs_out_of_bounds : seen 0xF155#16 quiet ({ regs [(0, 0xAB), (1, 0xCD)] with idx := 0x0FFF })
    (fun t => (t.mem.get 0xFFF, t.status)) =
    some (0#8, .faulted .outOfBoundsData) := by decide

/-- I20 -/
theorem test_ldRegs : seen 0xF265#16 quiet (bytes [(0x400, 0x11), (0x401, 0x22), (0x402, 0x33), (0x403, 0x44)] { State.reset with idx := 0x0400 })
    (fun t => (readV t 0, readV t 1, readV t 2, readV t 3)) =
    some (0x11#8, 0x22#8, 0x33#8, 0#8) := by decide

/-- I22 -/
theorem test_ldRegs_out_of_bounds : seen 0xF165#16 quiet ({ regs [(0, 9), (1, 9)] with idx := 0x0FFF })
    (fun t => (readV t 0, readV t 1, t.status)) =
    some (9#8, 9#8, .faulted .outOfBoundsData) := by decide

/-- FB7 -/
theorem test_drw_wraps_anchor : seen 0xD121#16 quiet (bytes [(0x300, 0xC0)] { regs [(1, 0x43), (2, 0x22)] with idx := 0x0300 })
    (fun t => (t.fb.get 2 3, t.fb.get 2 4, t.fb.get 2 5, readV t 15)) =
    some (true, true, false, 0#8) := by decide

/-- FB4 -/
theorem test_drw_collides : seen 0xD121#16 quiet (bytes [(0x300, 0x80)] (pixels [(0, 0)] { State.reset with idx := 0x0300 }))
    (fun t => (t.fb.get 0 0, readV t 15)) =
    some (false, 1#8) := by decide

/-- K5 -/
theorem test_skp_low_nibble : seen 0xE29E#16 { quiet with keysHeld := 0x0008 } (regs [(2, 0x13)])
    (fun t => t.pc) =
    some 0x204#16 := by decide

/-- K3 -/
theorem test_sknp_held : seen 0xE2A1#16 { quiet with keysHeld := 0x0020 } (regs [(2, 5)])
    (fun t => t.pc) =
    some 0x202#16 := by decide

/-- K7 -/
theorem test_ldVxDT : seen 0xF307#16 quiet ({ State.reset with dt := 16 })
    (fun t => (readV t 3, t.dt)) =
    some (0x10#8, 15#8) := by decide

/-- K10 -/
theorem test_ldVxK_takes_key : seen 0xF50A#16 { quiet with keyPress := some 0xB } (State.reset)
    (fun t => (readV t 5, t.pc)) =
    some (0x0B#8, 0x202#16) := by decide

/-- K11: the timers run, the tone sounds -/
theorem test_ldVxK_waits : seen 0xF50A#16 quiet ({ State.reset with dt := 2, st := 1 })
    (fun t => (t.pc, t.dt, t.st, t.tone)) =
    some (0x200#16, 1#8, 0#8, true) := by decide

/-- K13 -/
theorem test_ldDTVx : seen 0xF315#16 quiet (regs [(3, 0x3C)])
    (fun t => t.dt) =
    some 59#8 := by decide

/-- K17: the tone of the value just written -/
theorem test_ldSTVx : seen 0xF318#16 quiet (regs [(3, 1)])
    (fun t => (t.st, t.tone)) =
    some (0#8, true) := by decide

/-- K18 -/
theorem test_ldSTVx_silences : seen 0xF318#16 quiet ({ regs [(3, 0)] with st := 1 })
    (fun t => (t.st, t.tone)) =
    some (0#8, false) := by decide

/-- S1 -/
theorem test_unrecognized_is_reported : seen 0x0000#16 quiet ({ State.reset with dt := 5, st := 5 })
    (fun t => (t.pc, t.dt, t.st, t.unrec, t.status)) =
    some (0x202#16, 4#8, 4#8, some ⟨0x0000, 0x200⟩, .running) := by decide

/-- S10 -/
theorem test_fetch_odd_address : seen 0x6001#16 quiet ({ State.reset with pc := 0x0201 })
    (fun t => (t.pc, readV t 0)) =
    some (0x203#16, 1#8) := by decide

/-- S7 -/
theorem test_fetch_out_of_bounds : seen 0x6001#16 quiet ({ State.reset with pc := 0x0FFF, dt := 3 })
    (fun t => (t.pc, t.dt, t.status, t.faultInfo)) =
    some (0xFFF#16, 3#8, .faulted .outOfBoundsFetch, ⟨0xFFF, 0, none⟩) := by decide

/-! ### Witnesses: for each obligation with hypotheses, values that meet them, each clause at a boundary value -/

/-- A running machine about to run `w` at `pc`. -/
def poised (w : Word) (pc : Word) : State := placeWord w { State.reset with pc := pc }

/-- EncodeOfDecodeIsTheWord: recognized words, aliases among them. -/
theorem test_meets_EncodeOfDecode :
    decodeWord 0x0AEE = some (.ret 0xA) ∧ decodeWord 0x5AAF = some (.seReg 0xA 0xA 0xF) ∧
    decodeWord 0xFF65 = some (.ldRegs 0xF) := by decide

/-- StepRunsTheDecodedInstruction: at the reset address and at the last address a fetch can read. -/
theorem test_meets_StepRuns :
    ((poised 0x6005 0x200).status = .running ∧ fetchable (poised 0x6005 0x200) = true ∧
      decodeWord (fetchWord (poised 0x6005 0x200)) = some (.ldImm 0 5)) ∧
    ((poised 0x00EE 0xFFE).status = .running ∧ fetchable (poised 0x00EE 0xFFE) = true ∧
      decodeWord (fetchWord (poised 0x00EE 0xFFE)) = some (.ret 0)) := by decide

/-- FetchReadsTwoBytesOrFaults: the last address inside (with a step that completes) and the first outside. -/
theorem test_meets_Fetch :
    ((poised 0x6005 0xFFE).status = .running ∧ (poised 0x6005 0xFFE).pc.toNat + 1 < 4096 ∧
      ∃ t, step (poised 0x6005 0xFFE) = .next t ∧ t.status = .running) ∧
    (poised 0x6005 0xFFF).status = .running ∧ 4096 ≤ (poised 0x6005 0xFFF).pc.toNat + 1 :=
  ⟨⟨rfl, by decide, _, rfl, rfl⟩, rfl, by decide⟩

/-- UnrecognizedWordIsReportedNoOp: a word of family 0x8, and the empty memory after reset. -/
theorem test_meets_Unrecognized :
    ((poised 0x801F 0xFFE).status = .running ∧ fetchable (poised 0x801F 0xFFE) = true ∧
      decodeWord (fetchWord (poised 0x801F 0xFFE)) = none) ∧
    State.reset.status = .running ∧ fetchable State.reset = true ∧ decodeWord (fetchWord State.reset) = none := by
  decide

/-- A machine stopped by a return with nothing to return to. -/
def stopped : State := raise ⟨.stackUnderflow, none⟩ 0x00EE#16 (beginStep quiet (poised 0x00EE 0x200))

/-- FaultedCoreIsInertUntilReset: one step, the fewest that clear the outputs. -/
theorem test_meets_Faulted : stopped.status = .faulted .stackUnderflow ∧ 0 < 1 := ⟨rfl, by decide⟩

/-- TimersCountEveryCompletedStep: an instruction that writes no timer, and the two that do. -/
theorem test_meets_Timers :
    (∃ t, step (poised 0x6005 0x200) = .next t ∧ t.status = .running) ∧
    (∃ t, step (poised 0xF315 0x200) = .next t ∧ t.status = .running) ∧
    (∃ t, step (poised 0xF318 0x200) = .next t ∧ t.status = .running) :=
  ⟨⟨_, rfl, rfl⟩, ⟨_, rfl, rfl⟩, ⟨_, rfl, rfl⟩⟩

/-- EachInstructionWritesOnlyItsParts: every instruction that can raise, where it just does not, and one that cannot. -/
theorem test_meets_EachInstructionWrites :
    raises (.ret 0) { State.reset with sp := 1 } = none ∧ raises (.call 0xFFF) { State.reset with sp := 15 } = none ∧
    raises (.ldB 3) { State.reset with idx := 0xFFD } = none ∧
    raises (.stRegs 15) { State.reset with idx := 0xFF0 } = none ∧
    raises (.ldRegs 0) { State.reset with idx := 0xFFF } = none ∧
    raises (.drw 1 2 15) { State.reset with idx := 0xFF1 } = none ∧
    raises (.drw 1 2 0) { State.reset with idx := 0xFFFF } = none ∧ raises (.jp 0) State.reset = none ∧
    writesReg (.ldRegs 14) 15 = false ∧ writesReg (.addReg 0 1) 14 = false ∧ writesReg (.cls 0) 0 = false := by decide

/-- FatalFaultsArePrecise: every instruction that can raise, where it just does. -/
theorem test_meets_FatalFaults :
    raises (.ret 0) State.reset = some ⟨.stackUnderflow, none⟩ ∧
    raises (.call 0) { State.reset with sp := 16 } = some ⟨.stackOverflow, none⟩ ∧
    raises (.ldB 3) { State.reset with idx := 0xFFE } = some ⟨.outOfBoundsData, some 0x1000⟩ ∧
    raises (.stRegs 15) { State.reset with idx := 0xFF1 } = some ⟨.outOfBoundsData, some 0x1000⟩ ∧
    raises (.ldRegs 0) { State.reset with idx := 0x1000 } = some ⟨.outOfBoundsData, some 0x1000⟩ ∧
    raises (.drw 1 2 1) { State.reset with idx := 0xFFFF } = some ⟨.outOfBoundsData, some 0xFFFF⟩ := by decide

/-- FatalFaultsArePrecise, of a step: the fault of the fetch, and one of an instruction. -/
theorem test_meets_FatalFaults_of_a_step :
    (∃ t, (poised 0 0xFFF).status = .running ∧ step (poised 0 0xFFF) = .next t ∧
      t.status = .faulted .outOfBoundsFetch) ∧
    ∃ t, (poised 0x00EE 0x200).status = .running ∧ step (poised 0x00EE 0x200) = .next t ∧
      t.status = .faulted .stackUnderflow :=
  ⟨⟨_, rfl, rfl, rfl⟩, ⟨_, rfl, rfl, rfl⟩⟩

/-- FlagInstructionsLeaveZeroOrOne: all seven. -/
theorem test_meets_Flag :
    ∀ i ∈ [Instr.addReg 15 1, .sub 0 15, .shr 15 15, .subn 0 1, .shl 0 1, .drw 1 2 15, .addI 15],
      writesFlag i = true ∧ raises i State.reset = none := by decide

/-- InputsReachOnlyFourInstructions: one instruction that completes and one that raises. -/
theorem test_meets_Inputs :
    readsInput (.drw 1 2 5) = false ∧ readsInput (.ret 0) = false ∧
    ({ quiet with keysHeld := 0xFFFF, keyPress := some 7 } : StepInput) ≠ quiet := by decide

/-- StepKeepsTheInvariant: the reset machine, and a stopped one. -/
theorem test_meets_StepKeepsTheInvariant :
    (Inv State.reset ∧ ∃ t, step State.reset = .next t) ∧ (Inv stopped ∧ ∃ t, step stopped = .next t) := by
  refine ⟨⟨⟨rfl, by decide, by decide, fun _ => rfl, ?_, fun _ => rfl⟩, _, rfl⟩,
    ⟨⟨by decide, by decide, by decide, ?_, ?_, ?_⟩, _, rfl⟩⟩
  · intro c h; cases h
  · intro h; cases h
  · intro c h; cases h; exact ⟨rfl, rfl, rfl, by decide, by decide, .ret 0, by decide, by decide⟩
  · intro h; cases h

/-- ByteStoreChangesOneByte: the last address and the first outside, in a canonical memory. -/
theorem test_meets_ByteStore :
    4095 < 4096 ∧ 4096 ≤ 4096 ∧ (stopped.mem.wf = true) ∧ stopped.mem ≠ [] := by decide

/-- LoadCopiesTheImage: the largest image, in a state that meets the invariant. -/
theorem test_meets_LoadCopies :
    State.reset.loadOpen = true ∧ 0x200 + (List.replicate 3584 (0xFF : Byte)).length ≤ 4096 ∧ Inv State.reset := by
  rw [List.length_replicate]; exact ⟨rfl, by decide, test_meets_StepKeepsTheInvariant.1.1⟩

/-- LoadRejectsTooLargeOrLate: one byte more, a machine that has taken a step, and one about to. -/
theorem test_meets_LoadRejects :
    (State.reset.loadOpen = true ∧ 4096 < 0x200 + (List.replicate 3585 (0xFF : Byte)).length) ∧
    (∃ t, step State.reset = .next t ∧ t.loadOpen = false) ∧ State.reset.status = .running := by
  rw [List.length_replicate]; exact ⟨by decide, ⟨_, rfl, rfl⟩, rfl⟩

/-- StoredCodeIsFetchedNext: the last two bytes of memory. -/
theorem test_meets_StoredCode :
    (0xFFE#16).toNat + (1#4).toNat < 4096 ∧ (0#4).toNat < (1#4).toNat ∧
    (poised 0xF155 0xFFC).pc.toNat + 2 = (0xFFE#16).toNat + (0#4).toNat := by decide

/-- The statements over a word of a mask and match value: each is met at its largest word. -/
theorem test_meets_words :
    0x1FFF#16 &&& 0xF000#16 = 0x1000#16 ∧ 0xBFFF#16 &&& 0xF000#16 = 0xB000#16 ∧
    0x3FFF#16 &&& 0xF000#16 = 0x3000#16 ∧ 0x4FFF#16 &&& 0xF000#16 = 0x4000#16 ∧
    0x6FFF#16 &&& 0xF000#16 = 0x6000#16 ∧ 0x7FFF#16 &&& 0xF000#16 = 0x7000#16 ∧
    0x8FF0#16 &&& 0xF00F#16 = 0x8000#16 ∧ 0x8FF1#16 &&& 0xF00F#16 = 0x8001#16 ∧
    0x8FF2#16 &&& 0xF00F#16 = 0x8002#16 ∧ 0x8FF3#16 &&& 0xF00F#16 = 0x8003#16 ∧
    0xAFFF#16 &&& 0xF000#16 = 0xA000#16 := by decide

/-- CallPushesReturnAddress: the last free slot, and none; CallThenReturnComesBack: the last free slot. -/
theorem test_meets_Call :
    ({ State.reset with sp := 15 } : State).sp.val < 16 ∧ ({ State.reset with sp := 16 } : State).sp.val = 16 := by decide

/-- ReturnPopsReturnAddress: the first slot, the last, and none. -/
theorem test_meets_Return :
    (0 < 16 ∧ ({ State.reset with sp := 1 } : State).sp.val = 0 + 1) ∧
    (15 < 16 ∧ ({ State.reset with sp := 16 } : State).sp.val = 15 + 1) ∧ State.reset.sp.val = 0 := by decide

/-- AddRegistersSetsCarry, SubtractSetsNotBorrow, ShiftsKeepTheLostBit: a destination that is not the flag register. -/
theorem test_meets_destination : (14#4 : Nibble) ≠ 15#4 := by decide

/-- BcdStoresThreeDigits, StoreRegistersInOrder, LoadRegistersInOrder, StoreThenLoadRestoresRegisters: the last place the
block fits, for the largest and the smallest block; a register that is loaded and one that is not. -/
theorem test_meets_blocks :
    (0xFFD#16).toNat + 2 < 4096 ∧ (0xFF0#16).toNat + (15#4).toNat < 4096 ∧ (0xFFF#16).toNat + (0#4).toNat < 4096 ∧
    (2#4).toNat ≤ (2#4).toNat ∧ (2#4).toNat < (3#4).toNat := by decide

/-- DrawXorsExactlyTheSprite, DrawTwiceRestoresTheScreen: a sprite at the top of memory, and one of no row outside it;
a cell that is on under a 1 bit of the sprite, and a 1 bit over a cell that is off. -/
theorem test_meets_Draw :
    ((0xFF1#16).toNat + (15#4).toNat ≤ 4096) ∧ ((0#4 : Nibble) = 0 ∨ (0xFFFF#16).toNat + (0#4).toNat ≤ 4096) ∧
    (1#4 : Nibble) ≠ 15#4 ∧ (2#4 : Nibble) ≠ 15#4 ∧
    (pixels [(31, 63)] { regs [(1, 63), (2, 31)] with idx := 0x050 }).fb.get 31 63 = true ∧
    spriteBit 1 2 1 { regs [(1, 63), (2, 31)] with idx := 0x050 } 31 63 = true ∧
    spriteBit 1 2 1 { regs [(1, 63), (2, 31)] with idx := 0x050 } 31 62 = false ∧
    ({ regs [(1, 63), (2, 31)] with idx := 0x050 } : State).fb.get 31 63 = false := by decide

/-- DrawTwiceRestoresTheScreen: the same place with a coordinate that is not in the flag register, and with one that is
(a first draw without collision leaves it 0). -/
theorem test_meets_DrawTwice :
    (afterStep 0xD121 quiet { State.reset with idx := 0x050 }).map (fun t => (readV t 1, readV t 2)) =
      some (readV State.reset 1, readV State.reset 2) ∧
    (afterStep 0xDF21 quiet { State.reset with idx := 0x050 }).map (fun t => (readV t 15, readV t 2)) =
      some (readV State.reset 15, readV State.reset 2) := by decide

/-- TimerInstructionsReadAndWrite. -/
theorem test_meets_TimerInstructions :
    State.reset.status = .running ∧ 0xFF07#16 &&& 0xF0FF#16 = 0xF007#16 ∧ 0xFF15#16 &&& 0xF0FF#16 = 0xF015#16 ∧
    0xFF18#16 &&& 0xF0FF#16 = 0xF018#16 := by decide

/-- KeyWaitTakesTheKeyOrRepeats: with a key and with none. -/
theorem test_meets_KeyWait :
    (beginStep { quiet with keyPress := some 0xF } State.reset).env.input.keyPress = some 0xF ∧
    (beginStep quiet State.reset).env.input.keyPress = none := by decide

/-- A machine at a key wait whose next two steps are supplied with no key, and the one after with key 7. -/
def waiting : State :=
  { poised 0xF50A 0x200 with
    dt := 9
    env := { input := quiet, script := [quiet, quiet, { quiet with keyPress := some 7 }], tick := 0 } }

/-- KeyWaitHoldsWhileNoKeyComes: two steps. -/
theorem test_meets_KeyWaitHolds :
    waiting.status = .running ∧ fetchable waiting = true ∧ decodeWord (fetchWord waiting) = some (.ldVxK 5) ∧
    waiting.env.script = [quiet, quiet] ++ [{ quiet with keyPress := some 7 }] ∧
    ∀ i ∈ [quiet, quiet], i.keyPress = none := by decide

/-- SelfJumpStaysTerminated: a jump to itself at the reset address, and at the last address a fetch can read. -/
theorem test_meets_SelfJump : Terminated (poised 0x1200 0x200) ∧ Terminated (poised 0x1FFE 0xFFE) :=
  ⟨⟨rfl, by decide, by decide⟩, ⟨rfl, by decide, by decide⟩⟩

end Sys2Proof.Tests
end

section
/-! PROOFS. A recognized word is the encoding of what it decodes to (R54, R62). -/

namespace Sys2Proof

theorem formatA_of_fieldOp {w : Word} {op : Nibble} (hop : fieldOp w = op) : formatA op (fieldNNN w) = w :=
  hop ▸ formatA_fields w

theorem formatXK_of_fieldOp {w : Word} {op : Nibble} (hop : fieldOp w = op) :
    formatXK op (fieldX w) (fieldKK w) = w :=
  hop ▸ formatXK_fields w

theorem formatXYN_of_fieldOp {w : Word} {op : Nibble} (hop : fieldOp w = op) :
    formatXYN op (fieldX w) (fieldY w) (fieldN w) = w :=
  hop ▸ formatXYN_fields w

theorem formatXK_of_fieldOp_fieldKK {w : Word} {op : Nibble} {kk : Byte} (hop : fieldOp w = op)
    (hkk : fieldKK w = kk) : formatXK op (fieldX w) kk = w :=
  hkk ▸ formatXK_of_fieldOp hop

theorem formatXYN_of_fieldOp_fieldN {w : Word} {op n : Nibble} (hop : fieldOp w = op) (hn : fieldN w = n) :
    formatXYN op (fieldX w) (fieldY w) n = w :=
  hn ▸ formatXYN_of_fieldOp hop

theorem encode_of_decodeFamily0 {w : Word} {i : Instr} (hop : fieldOp w = 0x0#4) (h : decodeFamily0 w = some i) :
    encode i = w := by
  unfold decodeFamily0 at h
  split_ifs at h <;> cases h <;> exact formatXK_of_fieldOp_fieldKK hop ‹_›

theorem encode_of_decodeFamily8 {w : Word} {i : Instr} (hop : fieldOp w = 0x8#4) (h : decodeFamily8 w = some i) :
    encode i = w := by
  unfold decodeFamily8 at h
  split_ifs at h <;> cases h <;> exact formatXYN_of_fieldOp_fieldN hop ‹_›

theorem encode_of_decodeFamilyE {w : Word} {i : Instr} (hop : fieldOp w = 0xE#4) (h : decodeFamilyE w = some i) :
    encode i = w := by
  unfold decodeFamilyE at h
  split_ifs at h <;> cases h <;> exact formatXK_of_fieldOp_fieldKK hop ‹_›

theorem encode_of_decodeFamilyF {w : Word} {i : Instr} (hop : fieldOp w = 0xF#4) (h : decodeFamilyF w = some i) :
    encode i = w := by
  unfold decodeFamilyF at h
  split_ifs at h <;> cases h <;> exact formatXK_of_fieldOp_fieldKK hop ‹_›

/-- Decoding loses no bit of a recognized word, so that `IR` and a recorded fault hold the word fetched. -/
theorem encode_of_decodeWord {w : Word} {i : Instr} (h : decodeWord w = some i) : encode i = w := by
  obtain hop | hop | hop | hop | hop | hop | hop | hop | hop | hop | hop | hop | hop | hop | hop | hop :=
    nibble_cases (fieldOp w)
  · exact encode_of_decodeFamily0 hop (decodeWord_op_0 hop ▸ h)
  · cases (decodeWord_op_1 hop).symm.trans h; exact formatA_of_fieldOp hop
  · cases (decodeWord_op_2 hop).symm.trans h; exact formatA_of_fieldOp hop
  · cases (decodeWord_op_3 hop).symm.trans h; exact formatXK_of_fieldOp hop
  · cases (decodeWord_op_4 hop).symm.trans h; exact formatXK_of_fieldOp hop
  · cases (decodeWord_op_5 hop).symm.trans h; exact formatXYN_of_fieldOp hop
  · cases (decodeWord_op_6 hop).symm.trans h; exact formatXK_of_fieldOp hop
  · cases (decodeWord_op_7 hop).symm.trans h; exact formatXK_of_fieldOp hop
  · exact encode_of_decodeFamily8 hop (decodeWord_op_8 hop ▸ h)
  · cases (decodeWord_op_9 hop).symm.trans h; exact formatXYN_of_fieldOp hop
  · cases (decodeWord_op_A hop).symm.trans h; exact formatA_of_fieldOp hop
  · cases (decodeWord_op_B hop).symm.trans h; exact formatA_of_fieldOp hop
  · cases (decodeWord_op_C hop).symm.trans h; exact formatXK_of_fieldOp hop
  · cases (decodeWord_op_D hop).symm.trans h; exact formatXYN_of_fieldOp hop
  · exact encode_of_decodeFamilyE hop (decodeWord_op_E hop ▸ h)
  · exact encode_of_decodeFamilyF hop (decodeWord_op_F hop ▸ h)

end Sys2Proof
end

section
/-! PROOFS. What `exec` answers, said once: where nothing is raised, the instruction's rule on the advanced state; else
the entry into the fault (R68, R108, R127). -/

namespace Sys2Proof.Machine

/-! ### The rules of the instructions that can raise, where they do not -/

theorem sp_sub_one_lt (t : State) : t.sp.val - 1 < Config.stackDepth := by
  have hsp : t.sp.val < 17 := t.sp.isLt
  show t.sp.val - 1 < 16
  omega

/-- The state after a pop (R76). With no live slot, where `popToPc` signals, it says nothing of the machine. -/
def popped (t : State) : State :=
  { t with
    sp := ⟨t.sp.val - 1, Nat.lt_succ_of_lt (sp_sub_one_lt t)⟩
    pc := t.stack[t.sp.val - 1]'(sp_sub_one_lt t) }

/-- The state after a push (R78). With no free slot, where `push` signals, it says nothing of the machine. -/
def pushed (a : Word) (t : State) : State :=
  { t with
    stack := t.stack.setIfInBounds t.sp.val a
    sp := ⟨min (t.sp.val + 1) Config.stackDepth, Nat.lt_succ_of_le (Nat.min_le_right ..)⟩ }

/-- The state after a store at `I` (R104, R105). -/
def stored (bs : List Byte) (t : State) : State := { t with mem := copyBytes t.mem t.idx.toNat bs }

/-- The `n` bytes from `I` up (R106, R112). -/
def bytesAtI (n : Nat) (t : State) : List Byte := (List.range n).map (fun k => t.mem.get (t.idx.toNat + k))

theorem popToPc_eq_popped {t : State} (h : t.sp.val ≠ 0) : popToPc t = .ok (popped t) := by
  obtain ⟨_, _, hpop⟩ | ⟨h0, _⟩ := popToPc_cases t
  · exact hpop
  · exact absurd h0 h

theorem popToPc_eq_error {t : State} (h : t.sp.val = 0) : popToPc t = .error ⟨.stackUnderflow, none⟩ := by
  obtain ⟨-, hpos, -⟩ | ⟨-, hpop⟩ := popToPc_cases t
  · omega
  · exact hpop

theorem push_eq_pushed {a : Word} {t : State} (h : t.sp.val ≠ Config.stackDepth) : push a t = .ok (pushed a t) := by
  obtain ⟨hlt, hpush⟩ | ⟨hfull, -⟩ := push_cases a t
  · have hstack : t.stack.set t.sp.val a hlt = t.stack.setIfInBounds t.sp.val a := by
      ext k hk
      rw [Vector.getElem_set, Vector.getElem_setIfInBounds]
    simp only [hpush, pushed, hstack, Nat.min_eq_left (Nat.succ_le_of_lt hlt)]
  · exact absurd hfull h

theorem push_eq_error {a : Word} {t : State} (h : t.sp.val = Config.stackDepth) :
    push a t = .error ⟨.stackOverflow, none⟩ := by
  obtain ⟨hlt, -⟩ | ⟨-, hpush⟩ := push_cases a t
  · omega
  · exact hpush

theorem storeAtI_eq_stored {bs : List Byte} {t : State} (h : pastEnd t bs.length = none) :
    storeAtI bs t = .ok (stored bs t) := by
  obtain h0 | hle := pastEnd_none h
  · cases List.length_eq_zero_iff.1 h0; rfl
  · exact storeAtI_ok hle

theorem storeAtI_eq_error {bs : List Byte} {t : State} {e : FaultSignal} (h : pastEnd t bs.length = some e) :
    storeAtI bs t = .error e := by
  obtain ⟨hpos, hlt, rfl⟩ := pastEnd_some h
  exact storeAtI_error (List.length_pos_iff.1 hpos) hlt

theorem readAtI_eq_bytesAtI {n : Nat} {t : State} (h : pastEnd t n = none) : readAtI n t = .ok (bytesAtI n t) := by
  obtain rfl | hle := pastEnd_none h
  · rfl
  · exact readBlock_ok n hle

theorem readAtI_eq_error {n : Nat} {t : State} {e : FaultSignal} (h : pastEnd t n = some e) :
    readAtI n t = .error e := by
  obtain ⟨hpos, hlt, rfl⟩ := pastEnd_some h
  exact readBlock_error n hpos hlt

/-- The registers 0 to `x` are `x + 1` bytes. -/
theorem length_regsFrom_zero (v : Vector Byte 16) (x : Nibble) : (regsFrom v 0 (x.toNat + 1)).length = x.toNat + 1 := by
  have := x.isLt
  rw [regsFrom_length]
  omega

/-! ### Every instruction -/

/-- The rule of an instruction where it raises nothing, from the state whose `IR` and `PC` are already written. -/
def effect : Instr → State → State
  | .cls _, t => { t with fb := blankScreen }
  | .ret _, t => popped t
  | .jp nnn, t => jumpTo (zextAddr nnn) t
  | .call nnn, t => jumpTo (zextAddr nnn) (pushed t.pc t)
  | .seImm x kk, t => skipIf (readV t x == kk) t
  | .sneImm x kk, t => skipIf (readV t x != kk) t
  | .seReg x y _, t => skipIf (readV t x == readV t y) t
  | .ldImm x kk, t => writeV x kk t
  | .addImm x kk, t => writeV x (readV t x + kk) t
  | .ldReg x y, t => writeV x (readV t y) t
  | .orReg x y, t => writeV x (readV t x ||| readV t y) t
  | .andReg x y, t => writeV x (readV t x &&& readV t y) t
  | .xorReg x y, t => writeV x (readV t x ^^^ readV t y) t
  | .addReg x y, t => writeWithFlag x (readV t x + readV t y) (carryFlag (readV t x) (readV t y)) t
  | .sub x y, t => writeWithFlag x (readV t x - readV t y) (notBorrowFlag (readV t x) (readV t y)) t
  | .shr x _, t => writeWithFlag x (readV t x >>> 1) (shrFlag (readV t x)) t
  | .subn x y, t => writeWithFlag x (readV t y - readV t x) (notBorrowFlag (readV t y) (readV t x)) t
  | .shl x _, t => writeWithFlag x (readV t x <<< 1) (shlFlag (readV t x)) t
  | .sneReg x y _, t => skipIf (readV t x != readV t y) t
  | .ldI nnn, t => writeI (zextAddr nnn) t
  | .jpV0 nnn, t => jumpTo (zextAddr nnn + zextByte (readV t 0#4)) t
  | .rnd x kk, t => writeV x (t.env.input.randByte &&& kk) t
  | .drw x y n, t => drawSprite (anchorCol (readV t x)) (anchorRow (readV t y)) (bytesAtI n.toNat t) t
  | .skp x, t => skipIf (keyHeld t (lowNibble (readV t x))) t
  | .sknp x, t => skipIf (!keyHeld t (lowNibble (readV t x))) t
  | .ldVxDT x, t => writeV x t.dt t
  | .ldVxK x, t => awaitKey x t
  | .ldDTVx x, t => { t with dt := readV t x }
  | .ldSTVx x, t => { t with st := readV t x }
  | .addI x, t =>
    writeV flagReg (flagByte (indexFlag t.idx (readV t x))) (writeI (t.idx + zextByte (readV t x)) t)
  | .ldF x, t => writeI (glyphAddr (lowNibble (readV t x))) t
  | .ldB x, t => stored (bcdDigits (readV t x)) t
  | .stRegs x, t => stored (regsFrom t.v 0 (x.toNat + 1)) t
  | .ldRegs x, t => { t with v := setRegsFrom t.v 0 (bytesAtI (x.toNat + 1) t) }

/-- The rule of an instruction, its fault conditions included. -/
def rule : Instr → State → Except FaultSignal State
  | .ret _, t => popToPc t
  | .call nnn, t => (push t.pc t).map (jumpTo (zextAddr nnn))
  | .drw x y n, t =>
    (readAtI n.toNat t).map (fun bytes => drawSprite (anchorCol (readV t x)) (anchorRow (readV t y)) bytes t)
  | .ldB x, t => storeAtI (bcdDigits (readV t x)) t
  | .stRegs x, t => storeAtI (regsFrom t.v 0 (x.toNat + 1)) t
  | .ldRegs x, t => (readAtI (x.toNat + 1) t).map (fun bytes => { t with v := setRegsFrom t.v 0 bytes })
  | i, t => .ok (effect i t)

/-- `exec` is the rule of each instruction, run as one that can raise. -/
theorem exec_eq_performOrRaise (i : Instr) (s : State) : exec i s = performOrRaise i (rule i) s := by
  cases i <;> rfl

theorem rule_of_raises_none {i : Instr} {t : State} (h : raises i t = none) : rule i t = .ok (effect i t) := by
  cases i with
  | ret z => exact popToPc_eq_popped (by simpa [raises] using h)
  | call nnn => exact congrArg (Except.map _) (push_eq_pushed (by simpa [raises] using h))
  | drw x y n => exact congrArg (Except.map _) (readAtI_eq_bytesAtI h)
  | ldB x => exact storeAtI_eq_stored h
  | stRegs x => exact storeAtI_eq_stored (by rwa [length_regsFrom_zero])
  | ldRegs x => exact congrArg (Except.map _) (readAtI_eq_bytesAtI h)
  | _ => rfl

theorem rule_of_raises_some {i : Instr} {t : State} {e : FaultSignal} (h : raises i t = some e) :
    rule i t = .error e := by
  cases i with
  | ret z =>
    simp only [raises, Option.ite_none_right_eq_some, Option.some.injEq] at h
    obtain ⟨hsp, rfl⟩ := h
    exact popToPc_eq_error hsp
  | call nnn =>
    simp only [raises, Option.ite_none_right_eq_some, Option.some.injEq] at h
    obtain ⟨hsp, rfl⟩ := h
    exact congrArg (Except.map _) (push_eq_error hsp)
  | drw x y n => exact congrArg (Except.map _) (readAtI_eq_error h)
  | ldB x => exact storeAtI_eq_error h
  | stRegs x => exact storeAtI_eq_error (by rwa [length_regsFrom_zero])
  | ldRegs x => exact congrArg (Except.map _) (readAtI_eq_error h)
  | _ => cases h

@[simp] theorem raises_advance (i : Instr) (w : Word) (s : State) : raises i (advance w s) = raises i s :=
  raises_congr i rfl rfl

/-- An instruction that raises nothing completes. -/
theorem exec_of_raises_none {i : Instr} {s : State} (h : raises i s = none) :
    exec i s = .next (effect i (advance (encode i) s)) :=
  (exec_eq_performOrRaise i s).trans (performOrRaise_ok (rule_of_raises_none (by rwa [raises_advance])))

/-- An instruction that raises does nothing else: the fault is taken from the state before it. -/
theorem exec_of_raises_some {i : Instr} {s : State} {e : FaultSignal} (h : raises i s = some e) :
    exec i s = .next (raise e (encode i) s) :=
  (exec_eq_performOrRaise i s).trans (performOrRaise_error (rule_of_raises_some (by rwa [raises_advance])))

end Sys2Proof.Machine
end

section
/-! PROOFS. What an instruction that completes leaves unchanged (R27, R28), and the flag it writes (R18). -/

namespace Sys2Proof.Machine

/-! ### Frames compose -/

theorem Part.Same.trans {p : Part} {s t u : State} (hst : p.Same s t) (htu : p.Same t u) : p.Same s u := by
  cases p with
  | v => exact fun x => (htu x).trans (hst x)
  | fb => exact fun r c => (htu r c).trans (hst r c)
  | mem => exact fun a => (htu a).trans (hst a)
  | _ => exact Eq.trans htu hst

theorem ChangesOnly.mono {ps qs : List Part} {s t : State} (h : ChangesOnly ps s t) (hsub : ps ⊆ qs) :
    ChangesOnly qs s t :=
  fun p hp => h p (fun hmem => hp (hsub hmem))

theorem ChangesOnly.trans {ps qs : List Part} {s t u : State} (hst : ChangesOnly ps s t) (htu : ChangesOnly qs t u) :
    ChangesOnly (ps ++ qs) s u :=
  fun p hp => (hst p (fun h => hp (List.mem_append_left _ h))).trans (htu p (fun h => hp (List.mem_append_right _ h)))

/-! ### The frame of each state operation -/

theorem changesOnly_advance (w : Word) (s : State) : ChangesOnly [.pc, .ir] s (advance w s) := by
  intro p hp
  cases p <;> simp [Part.Same] at hp ⊢

theorem changesOnly_writeV (x : Nibble) (b : Byte) (t : State) : ChangesOnly [.v] t (writeV x b t) := by
  intro p hp
  cases p <;> simp [Part.Same] at hp ⊢

theorem changesOnly_jumpTo (a : Word) (t : State) : ChangesOnly [.pc] t (jumpTo a t) := by
  intro p hp
  cases p <;> simp [Part.Same] at hp ⊢

theorem changesOnly_skipIf (c : Bool) (t : State) : ChangesOnly [.pc] t (skipIf c t) := by
  intro p hp
  cases p <;> simp [Part.Same] at hp ⊢

theorem changesOnly_writeI (a : Word) (t : State) : ChangesOnly [.idx] t (writeI a t) := by
  intro p hp
  cases p <;> simp [Part.Same] at hp ⊢

theorem changesOnly_setRegs (v : Vector Byte 16) (t : State) : ChangesOnly [.v] t { t with v := v } := by
  intro p hp
  cases p <;> simp [Part.Same] at hp ⊢

theorem changesOnly_setScreen (f : Screen) (t : State) : ChangesOnly [.fb] t { t with fb := f } := by
  intro p hp
  cases p <;> simp [Part.Same, readV] at hp ⊢

theorem changesOnly_setDT (b : Byte) (t : State) : ChangesOnly [.dt] t { t with dt := b } := by
  intro p hp
  cases p <;> simp [Part.Same, readV] at hp ⊢

theorem changesOnly_setST (b : Byte) (t : State) : ChangesOnly [.st] t { t with st := b } := by
  intro p hp
  cases p <;> simp [Part.Same, readV] at hp ⊢

theorem changesOnly_popped (t : State) : ChangesOnly [.pc, .sp] t (popped t) := by
  intro p hp
  cases p <;> simp [Part.Same, readV, popped] at hp ⊢

theorem changesOnly_pushed (a : Word) (t : State) : ChangesOnly [.stack, .sp] t (pushed a t) := by
  intro p hp
  cases p <;> simp [Part.Same, readV, pushed] at hp ⊢

theorem changesOnly_stored (bs : List Byte) (t : State) : ChangesOnly [.mem] t (stored bs t) := by
  intro p hp
  cases p <;> simp [Part.Same, readV, stored] at hp ⊢

theorem changesOnly_writeWithFlag (x : Nibble) (b : Byte) (f : Bool) (t : State) :
    ChangesOnly [.v] t (writeWithFlag x b f t) :=
  ((changesOnly_writeV x b t).trans (changesOnly_writeV _ _ _)).mono (by simp)

theorem changesOnly_drawSprite (cx cy : Nat) (bs : List Byte) (t : State) :
    ChangesOnly [.fb, .v] t (drawSprite cx cy bs t) :=
  (changesOnly_setScreen _ t).trans (changesOnly_writeV _ _ _)

theorem awaitKey_none {x : Nibble} {t : State} (h : t.env.input.keyPress = none) :
    awaitKey x t = jumpTo (t.pc - 2#16) t := by
  simp only [awaitKey, h, jumpTo]

theorem awaitKey_some {x k : Nibble} {t : State} (h : t.env.input.keyPress = some k) :
    awaitKey x t = writeV x (zextNibble k) t := by
  simp only [awaitKey, h]

theorem awaitKey_mem (x : Nibble) (t : State) : (awaitKey x t).mem = t.mem := by
  cases hkey : t.env.input.keyPress with
  | none => rw [awaitKey_none hkey, jumpTo_mem]
  | some k => rw [awaitKey_some hkey, writeV_mem]

theorem changesOnly_awaitKey (x : Nibble) (t : State) : ChangesOnly [.pc, .v] t (awaitKey x t) := by
  cases hkey : t.env.input.keyPress with
  | none => exact awaitKey_none hkey ▸ (changesOnly_jumpTo _ _).mono (by simp)
  | some k => exact awaitKey_some hkey ▸ (changesOnly_writeV _ _ _).mono (by simp)

/-! ### The frame of each instruction -/

/-- The rule of an instruction writes `PC` and the parts R28 gives it. -/
theorem changesOnly_effect (i : Instr) (t : State) : ChangesOnly (.pc :: writesOf i) t (effect i t) := by
  cases i with
  | cls => exact (changesOnly_setScreen _ _).mono (by simp [writesOf])
  | ret => exact changesOnly_popped t
  | call => exact ((changesOnly_pushed _ _).trans (changesOnly_jumpTo _ _)).mono (by simp [writesOf])
  | jp | jpV0 => exact changesOnly_jumpTo _ _
  | seImm | sneImm | seReg | sneReg | skp | sknp => exact changesOnly_skipIf _ _
  | ldImm | addImm | ldReg | orReg | andReg | xorReg | rnd | ldVxDT =>
    exact (changesOnly_writeV _ _ _).mono (by simp [writesOf])
  | addReg | sub | shr | subn | shl => exact (changesOnly_writeWithFlag _ _ _ _).mono (by simp [writesOf])
  | ldI | ldF => exact (changesOnly_writeI _ _).mono (by simp [writesOf])
  | addI => exact ((changesOnly_writeI _ _).trans (changesOnly_writeV _ _ _)).mono (by simp [writesOf])
  | drw => exact (changesOnly_drawSprite _ _ _ _).mono (by simp [writesOf])
  | ldVxK => exact changesOnly_awaitKey _ _
  | ldDTVx => exact (changesOnly_setDT _ _).mono (by simp [writesOf])
  | ldSTVx => exact (changesOnly_setST _ _).mono (by simp [writesOf])
  | ldB | stRegs => exact (changesOnly_stored _ _).mono (by simp [writesOf])
  | ldRegs => exact (changesOnly_setRegs _ _).mono (by simp [writesOf])

/-- `IR`, the status, the outputs and the model's own fields are no instruction's to write. -/
theorem writesOf_subset (i : Instr) : writesOf i ⊆ [.v, .idx, .stack, .sp, .dt, .st, .fb, .mem] := by
  cases i <;> simp [writesOf]

theorem effect_keeps (i : Instr) (t : State) {p : Part}
    (hp : p ∉ [Part.pc, .v, .idx, .stack, .sp, .dt, .st, .fb, .mem]) : p.Same t (effect i t) :=
  (changesOnly_effect i t).mono (List.cons_subset_cons _ (writesOf_subset i)) p hp

@[simp] theorem effect_ir (i : Instr) (t : State) : (effect i t).ir = t.ir :=
  effect_keeps i t (p := .ir) (by decide)

@[simp] theorem effect_status (i : Instr) (t : State) : (effect i t).status = t.status :=
  effect_keeps i t (p := .status) (by decide)

@[simp] theorem effect_faultInfo (i : Instr) (t : State) : (effect i t).faultInfo = t.faultInfo :=
  effect_keeps i t (p := .faultInfo) (by decide)

/-! ### The registers an instruction keeps -/

@[simp] theorem length_bytesAtI (n : Nat) (t : State) : (bytesAtI n t).length = n := by simp [bytesAtI]

theorem readV_writeV_of_ne {x y : Nibble} (h : y ≠ x) (b : Byte) (t : State) : readV (writeV x b t) y = readV t y := by
  rw [readV_writeV, if_neg h]

theorem readV_writeWithFlag_of_ne {x y : Nibble} (hx : y ≠ x) (hf : y ≠ flagReg) (b : Byte) (f : Bool) (t : State) :
    readV (writeWithFlag x b f t) y = readV t y := by
  rw [readV_writeWithFlag, if_neg hf, if_neg hx]

/-- A block of registers from 0 up leaves the registers past its end. -/
theorem readV_setRegsFrom_of_le {bs : List Byte} {r : Nibble} (h : bs.length ≤ r.toNat) (t : State) :
    readV { t with v := setRegsFrom t.v 0 bs } r = readV t r := by
  rw [readV, setRegsFrom_getElem, dif_neg (by omega), readV]

theorem readV_awaitKey_of_ne {x r : Nibble} (h : r ≠ x) (t : State) : readV (awaitKey x t) r = readV t r := by
  cases hkey : t.env.input.keyPress with
  | none => rw [awaitKey_none hkey, readV_jumpTo]
  | some k => rw [awaitKey_some hkey, readV_writeV_of_ne h]

/-- The rule of an instruction keeps the registers R27 does not give it. -/
theorem readV_effect_of_writesReg {i : Instr} {r : Nibble} (h : writesReg i r = false) (t : State) :
    readV (effect i t) r = readV t r := by
  cases i with
  | ldImm x | addImm x | ldReg x | orReg x | andReg x | xorReg x | rnd x | ldVxDT x =>
    exact readV_writeV_of_ne (by simpa [writesReg] using h) ..
  | ldVxK x => exact readV_awaitKey_of_ne (by simpa [writesReg] using h) t
  | addReg x | sub x | shr x | subn x | shl x =>
    simp only [writesReg, Bool.or_eq_false_iff, beq_eq_false_iff_ne] at h
    exact readV_writeWithFlag_of_ne h.1 h.2 ..
  | drw | addI => exact readV_writeV_of_ne (by simpa [writesReg] using h) ..
  | ldRegs x =>
    have hlt : x.toNat + 1 ≤ r.toNat := by simpa [writesReg] using h
    exact readV_setRegsFrom_of_le (by rwa [length_bytesAtI]) t
  | _ => rfl

/-- Settles O12: the frame of the advance and that of the instruction's rule, one after the other. -/
theorem eachInstructionWritesOnlyItsParts : Obligations.EachInstructionWritesOnlyItsParts := by
  intro i s h
  refine ⟨_, exec_of_raises_none h, by simp, ?_, fun r hr => by simp [readV_effect_of_writesReg hr]⟩
  exact ((changesOnly_advance (encode i) s).trans (changesOnly_effect i _)).mono (by simp)

/-! ### The flag -/

theorem flagByte_eq_zero_or_one (f : Bool) : flagByte f = 0 ∨ flagByte f = 1 := by cases f <;> decide

theorem readV_writeV_self (x : Nibble) (b : Byte) (t : State) : readV (writeV x b t) x = b := by
  rw [readV_writeV, if_pos rfl]

/-- The flag is written last, so that it stands in `V[15]` also where `V[15]` is the destination (D10). -/
theorem readV_effect_flagReg {i : Instr} (h : writesFlag i = true) (t : State) :
    ∃ f, readV (effect i t) flagReg = flagByte f := by
  cases i with
  | addReg | sub | shr | subn | shl | drw | addI => exact ⟨_, readV_writeV_self ..⟩
  | _ => cases h

/-- Settles O14: what a flag-writing instruction leaves in `V[15]` is a flag as a register value. -/
theorem flagInstructionsLeaveZeroOrOne : Obligations.FlagInstructionsLeaveZeroOrOne := by
  intro i s hflag hraises
  obtain ⟨f, hf⟩ := readV_effect_flagReg hflag (advance (encode i) s)
  exact ⟨_, exec_of_raises_none hraises, hf ▸ flagByte_eq_zero_or_one f⟩

/-! ### The step inputs -/

/-- An instruction that reads no input has the same rule whatever the inputs are (R30). -/
theorem effect_setEnv {i : Instr} (h : readsInput i = false) (t : State) (e : Env) :
    effect i { t with env := e } = { effect i t with env := e } := by
  cases i with
  | skp | sknp | ldVxK | rnd => cases h
  | _ => rfl

/-- Settles O15: neither an instruction's fault condition nor its rule reads the inputs. -/
theorem inputsReachOnlyFourInstructions : Obligations.InputsReachOnlyFourInstructions := by
  intro i s e h
  have hraises : raises i { s with env := e } = raises i s := raises_congr i rfl rfl
  cases hr : raises i s with
  | none => exact ⟨_, exec_of_raises_none hr, (exec_of_raises_none (hraises.trans hr)).trans
      (congrArg _ (effect_setEnv h (advance (encode i) s) e))⟩
  | some f => exact ⟨_, exec_of_raises_some hr, exec_of_raises_some (hraises.trans hr)⟩

end Sys2Proof.Machine
end

section
/-! PROOFS. What a step can do, said once (R65 to R74), and the invariant it keeps (R17, R25, R33, R76, R126 to R131). -/

namespace Sys2Proof.Machine

/-! ### The step -/

/-- A running core at the start of its step: the outputs cleared and the inputs sampled (R65). -/
def stepStart (s : State) : State := beginStep (nextInput s.env) { s with env := s.env.drawn }

/-- The five ways a step can go, each with the state it answers. -/
inductive StepCase (s : State) : State → Prop where
  /-- A faulted core only clears its outputs (R72, R73). -/
  | inert {c : Fault} (hfaulted : s.status = .faulted c) : StepCase s (clearOutputs s)
  /-- The fetch cannot read (R66, R128). -/
  | fetchFault (hrun : s.status = .running) (hfetch : fetchable s = false) :
      StepCase s (raise ⟨.outOfBoundsFetch, none⟩ 0#16 (stepStart s))
  /-- The word is none of the 34 (R71). -/
  | unrecognized (hrun : s.status = .running) (hfetch : fetchable s = true) (hdec : decodeWord (fetchWord s) = none) :
      StepCase s (timerPhase (reportUnrecognized (fetchWord s) (stepStart s)))
  /-- The instruction raises (R127). -/
  | raised {i : Instr} {e : FaultSignal} (hrun : s.status = .running) (hfetch : fetchable s = true)
      (hdec : decodeWord (fetchWord s) = some i) (hraises : raises i s = some e) :
      StepCase s (raise e (fetchWord s) (stepStart s))
  /-- The instruction completes (R67 to R69). -/
  | completed {i : Instr} (hrun : s.status = .running) (hfetch : fetchable s = true)
      (hdec : decodeWord (fetchWord s) = some i) (hraises : raises i s = none) :
      StepCase s (timerPhase (effect i (advance (fetchWord s) (stepStart s))))

theorem raises_stepStart (i : Instr) (s : State) : raises i (stepStart s) = raises i s := raises_congr i rfl rfl

theorem runCycle_of_not_fetchable {s : State} (hfetch : fetchable s = false) :
    runCycle s = .next (raise ⟨.outOfBoundsFetch, none⟩ 0#16 s) := by
  simp [runCycle, hfetch]

theorem runCycle_of_decodeWord_none {s : State} (hfetch : fetchable s = true)
    (hdec : decodeWord (fetchWord s) = none) :
    runCycle s = .next (timerPhase (reportUnrecognized (fetchWord s) s)) := by
  simp only [runCycle, hfetch, hdec, if_true]

theorem runCycle_of_exec {s t : State} {i : Instr} (hfetch : fetchable s = true)
    (hdec : decodeWord (fetchWord s) = some i) (hexec : exec i s = .next t) : runCycle s = .next (finish t) := by
  simp only [runCycle, hfetch, hdec, hexec, if_true]

/-- Every step goes one of the five ways. -/
theorem exists_stepCase (s : State) : ∃ t, step s = .next t ∧ StepCase s t := by
  cases hs : s.status with
  | faulted c => exact ⟨_, step_faulted hs, .inert hs⟩
  | running =>
    rw [step_running hs]
    change ∃ t, runCycle (stepStart s) = .next t ∧ StepCase s t
    cases hf : fetchable s with
    | false => exact ⟨_, runCycle_of_not_fetchable hf, .fetchFault hs hf⟩
    | true =>
      cases hd : decodeWord (fetchWord s) with
      | none => exact ⟨_, runCycle_of_decodeWord_none hf hd, .unrecognized hs hf hd⟩
      | some i =>
        have hword := encode_of_decodeWord hd
        cases hr : raises i s with
        | none =>
          have hexec := exec_of_raises_none ((raises_stepStart i s).trans hr)
          rw [hword] at hexec
          have hrun : (effect i (advance (fetchWord s) (stepStart s))).status = .running := (effect_status ..).trans hs
          have hcycle := runCycle_of_exec (s := stepStart s) hf hd hexec
          exact ⟨_, hcycle.trans (congrArg _ (finish_running hrun)), .completed hs hf hd hr⟩
        | some e =>
          have hexec := exec_of_raises_some ((raises_stepStart i s).trans hr)
          rw [hword] at hexec
          exact ⟨_, runCycle_of_exec hf hd hexec, .raised hs hf hd hr⟩

/-- What a step can do, from what it answered. -/
theorem stepCase_of_step {s t : State} (h : step s = .next t) : StepCase s t := by
  obtain ⟨u, hu, hcase⟩ := exists_stepCase s
  cases hu.symm.trans h
  exact hcase

/-! ### What an instruction does to the bounded parts -/

theorem fetchable_iff (s : State) : fetchable s = true ↔ s.pc.toNat + 1 < 4096 := by
  simp [fetchable]

/-- The advance from an address the fetch can read does not wrap (R67). -/
theorem toNat_pc_add_two {s : State} (h : fetchable s = true) : (s.pc + 2#16).toNat = s.pc.toNat + 2 := by
  rw [fetchable_iff] at h
  rw [BitVec.toNat_add, BitVec.toNat_ofNat]
  omega

/-- The highest target of `Bnnn`, from which R17 has its bound. -/
theorem toNat_zextAddr_add_zextByte_le (a : Addr12) (b : Byte) : (zextAddr a + zextByte b).toNat ≤ 0x10FE := by
  have ha := a.isLt
  have hb := b.isLt
  simp only [zextAddr, zextByte, BitVec.toNat_add, BitVec.toNat_setWidth]
  omega

theorem toNat_zextAddr_le (a : Addr12) : (zextAddr a).toNat ≤ 0x0FFF := by
  have ha := a.isLt
  simp only [zextAddr, BitVec.toNat_setWidth]
  omega

/-- Every stack slot is at most 0x1000, the highest address a call can push (R76, R78). -/
def StackBounded (s : State) : Prop := ∀ (k : Nat) (h : k < 16), (s.stack[k]).toNat ≤ 0x1000

theorem pc_skipIf_le {t : State} (hpc : t.pc.toNat ≤ 0x1000) (c : Bool) : (skipIf c t).pc.toNat ≤ 0x10FE := by
  cases c with
  | false => exact hpc.trans (by decide)
  | true =>
    change (t.pc + 2#16).toNat ≤ 0x10FE
    rw [BitVec.toNat_add, BitVec.toNat_ofNat]
    omega

/-- The key wait either goes on or goes back to its own address (R119). -/
theorem pc_awaitKey_le {t : State} (hlow : 2 ≤ t.pc.toNat) (hpc : t.pc.toNat ≤ 0x1000) (x : Nibble) :
    (awaitKey x t).pc.toNat ≤ 0x10FE := by
  cases hkey : t.env.input.keyPress with
  | some k => rw [awaitKey_some hkey]; exact hpc.trans (by decide)
  | none =>
    rw [awaitKey_none hkey, jumpTo_pc, BitVec.toNat_sub, BitVec.toNat_ofNat]
    omega

/-- `PC` after an instruction at an address the fetch could read (R17). -/
theorem pc_effect_le {t : State} (hlow : 2 ≤ t.pc.toNat) (hpc : t.pc.toNat ≤ 0x1000) (hstack : StackBounded t)
    (i : Instr) : (effect i t).pc.toNat ≤ 0x10FE := by
  have hkept : t.pc.toNat ≤ 0x10FE := hpc.trans (by decide)
  cases i with
  | ret => exact (hstack _ (sp_sub_one_lt t)).trans (by decide)
  | jp nnn | call nnn => exact (toNat_zextAddr_le nnn).trans (by decide)
  | jpV0 => exact toNat_zextAddr_add_zextByte_le _ _
  | seImm | sneImm | seReg | sneReg | skp | sknp => exact pc_skipIf_le hpc _
  | ldVxK => exact pc_awaitKey_le hlow hpc _
  | _ => exact hkept

theorem stackBounded_pushed {t : State} (h : StackBounded t) {a : Word} (ha : a.toNat ≤ 0x1000) :
    StackBounded (pushed a t) := by
  intro k hk
  simp only [pushed, Vector.getElem_setIfInBounds]
  split
  · exact ha
  · exact h k hk

/-- Only a call writes the stack, and what it pushes is the advanced `PC` (R78). -/
theorem stackBounded_effect {t : State} (h : StackBounded t) (hpc : t.pc.toNat ≤ 0x1000) (i : Instr) :
    StackBounded (effect i t) := by
  cases i with
  | call => exact stackBounded_pushed h hpc
  | ldVxK x =>
    have hsame : (awaitKey x t).stack = t.stack := changesOnly_awaitKey x t .stack (by decide)
    intro k hk
    simpa only [effect, hsame] using h k hk
  | _ => exact h

theorem wf_stored {bs : List Byte} {t : State} (hpast : pastEnd t bs.length = none) (hm : t.mem.wf = true) :
    (stored bs t).mem.wf = true :=
  storeAtI_wf (storeAtI_eq_stored hpast) hm

/-- Only `Fx33` and `Fx55` write memory, inside it where they raise nothing. -/
theorem wf_effect {i : Instr} {t : State} (hraises : raises i t = none) (hm : t.mem.wf = true) :
    (effect i t).mem.wf = true := by
  cases i with
  | ldB => exact wf_stored hraises hm
  | stRegs => exact wf_stored (by rwa [length_regsFrom_zero]) hm
  | ldVxK x => rwa [effect, awaitKey_mem]
  | _ => exact hm

/-! ### The invariant, case by case -/

/-- `FAULT_INFO` with nothing recorded (R25). -/
abbrev emptyInfo : FaultInfo := { addr := 0, word := 0, dataAddr := none }

/-- While the core runs, the invariant is its bounds and an empty `FAULT_INFO`. -/
theorem inv_of_running {s : State} (hrun : s.status = .running) (hm : s.mem.wf = true) (hpc : s.pc.toNat ≤ 0x10FE)
    (hstack : StackBounded s) (hinfo : s.faultInfo = emptyInfo) : Inv s where
  mem_wf := hm
  pc_le := hpc
  stack_le := hstack
  running_info _ := hinfo
  faulted_info c hc := by rw [hrun] at hc; cases hc
  open_running _ := hrun

theorem inv_stepStart {s : State} (hrun : s.status = .running) (h : Inv s) : Inv (stepStart s) :=
  inv_of_running hrun h.mem_wf h.pc_le h.stack_le (h.running_info hrun)

theorem inv_timerPhase {s : State} (hrun : s.status = .running) (h : Inv s) : Inv (timerPhase s) :=
  inv_of_running hrun h.mem_wf h.pc_le h.stack_le (h.running_info hrun)

/-- The entry into a fault keeps the invariant where what it records fits the state it stops. -/
theorem inv_raise {s : State} {e : FaultSignal} {w : Word} (h : Inv s) (hopen : s.loadOpen = false)
    (hfits : FaultFits e.cause (raise e w s)) : Inv (raise e w s) where
  mem_wf := h.mem_wf
  pc_le := h.pc_le
  stack_le := h.stack_le
  running_info hrun := by cases hrun
  faulted_info c hc := by cases hc; exact hfits
  open_running ho := by rw [raise_loadOpen, hopen] at ho; cases ho

theorem faultFits_fetch {s : State} (hfetch : fetchable s = false) :
    FaultFits .outOfBoundsFetch (raise ⟨.outOfBoundsFetch, none⟩ 0#16 s) :=
  ⟨rfl, rfl, rfl, hfetch, rfl, rfl⟩

/-- A fault raised by an instruction fits: the entry changes neither the word at `PC` nor what that instruction raises. -/
theorem faultFits_raise {s : State} {i : Instr} {e : FaultSignal} (hfetch : fetchable s = true)
    (hdec : decodeWord (fetchWord s) = some i) (hraises : raises i s = some e) :
    FaultFits e.cause (raise e (fetchWord s) s) := by
  have hstill : raises i (raise e (fetchWord s) s) = some e := (raises_congr i rfl rfl).trans hraises
  have hne := raises_ne_fetch hraises
  obtain ⟨cause, dataAddr⟩ := e
  cases cause with
  | outOfBoundsFetch => exact absurd rfl hne
  | stackOverflow | stackUnderflow | outOfBoundsData => exact ⟨rfl, rfl, rfl, hfetch, rfl, i, hdec, hstill⟩

theorem faultFits_clearOutputs {c : Fault} {s : State} (h : FaultFits c s) : FaultFits c (clearOutputs s) := by
  obtain ⟨haddr, -, -, hcause⟩ := h
  refine ⟨haddr, rfl, rfl, ?_⟩
  cases c with
  | outOfBoundsFetch => exact hcause
  | stackOverflow | stackUnderflow | outOfBoundsData =>
    obtain ⟨hfetch, hword, i, hdec, hraises⟩ := hcause
    exact ⟨hfetch, hword, i, hdec, (raises_congr i rfl rfl).trans hraises⟩

theorem inv_clearOutputs {s : State} (h : Inv s) : Inv (clearOutputs s) where
  mem_wf := h.mem_wf
  pc_le := h.pc_le
  stack_le := h.stack_le
  running_info := h.running_info
  faulted_info c hc := faultFits_clearOutputs (h.faulted_info c hc)
  open_running := h.open_running

/-- The invariant of a running core outlives an unrecognized word (R71). -/
theorem inv_reportUnrecognized {s : State} (hrun : s.status = .running) (hfetch : fetchable s = true) (h : Inv s)
    (w : Word) : Inv (reportUnrecognized w s) := by
  have hpc : (s.pc + 2#16).toNat ≤ 0x10FE := by
    have := (fetchable_iff s).1 hfetch
    rw [toNat_pc_add_two hfetch]
    omega
  exact inv_of_running hrun h.mem_wf hpc h.stack_le (h.running_info hrun)

/-- The invariant of a running core outlives an instruction that completes. -/
theorem inv_effect {s : State} {i : Instr} (hrun : s.status = .running) (hfetch : fetchable s = true) (h : Inv s)
    (hraises : raises i s = none) (w : Word) : Inv (effect i (advance w s)) := by
  have hnext : (advance w s).pc.toNat = s.pc.toNat + 2 := toNat_pc_add_two hfetch
  have hlt := (fetchable_iff s).1 hfetch
  have hstack : StackBounded (advance w s) := h.stack_le
  exact inv_of_running ((effect_status ..).trans hrun)
    (wf_effect ((raises_advance ..).trans hraises) h.mem_wf)
    (pc_effect_le (by omega) (by omega) hstack i)
    (stackBounded_effect hstack (by omega) i)
    ((effect_faultInfo ..).trans (h.running_info hrun))

/-- Settles O19, by the five ways a step can go. -/
theorem stepKeepsTheInvariant : Obligations.StepKeepsTheInvariant := by
  intro s t h hstep
  cases stepCase_of_step hstep with
  | inert => exact inv_clearOutputs h
  | fetchFault hrun hfetch => exact inv_raise (inv_stepStart hrun h) rfl (faultFits_fetch hfetch)
  | unrecognized hrun hfetch _ =>
    exact inv_timerPhase hrun (inv_reportUnrecognized (s := stepStart s) hrun hfetch (inv_stepStart hrun h) _)
  | raised hrun hfetch hdec hraises =>
    exact inv_raise (inv_stepStart hrun h) rfl
      (faultFits_raise hfetch hdec ((raises_stepStart ..).trans hraises))
  | completed hrun hfetch _ hraises =>
    exact inv_timerPhase ((effect_status ..).trans hrun)
      (inv_effect (s := stepStart s) hrun hfetch (inv_stepStart hrun h) ((raises_stepStart ..).trans hraises) _)

/-! ### Reset -/

theorem stackBounded_reset : StackBounded State.reset := by
  intro k hk
  simp [State.reset]

/-- Settles O18: the reset state runs, with memory unlisted and every bound met. -/
theorem resetMeetsTheInvariant : Obligations.ResetMeetsTheInvariant :=
  inv_of_running rfl rfl (by decide) stackBounded_reset rfl

theorem get_reset_font {j : Nat} (h : j < Config.font.length) : State.reset.mem.get (0x050 + j) = Config.font[j] := by
  change resetByte (0x050 + j) = _
  simp [resetByte, h]

/-- Outside the 80 bytes of the font, memory holds 0 after reset (R32, R38). -/
theorem get_reset_outside {a : Nat} (h : ¬ (0x050 ≤ a ∧ a < 0x0A0)) : State.reset.mem.get a = 0 := by
  by_cases hlow : 0x050 ≤ a
  · have hlen : Config.font.length ≤ a - Config.fontBase := show 80 ≤ a - 0x050 by omega
    exact (if_pos hlow).trans (List.getD_eq_default _ _ hlen)
  · exact if_neg hlow

/-- Settles O17: the plain fields are read off; the screen and memory by their laws. -/
theorem resetLeavesTheSpecValues : Obligations.ResetLeavesTheSpecValues := by
  have hregs : ∀ x, readV State.reset x = 0 := by intro x; simp [readV, State.reset]
  have hstack : ∀ (k : Nat) (h : k < 16), State.reset.stack[k] = 0 := by intro k h; simp [State.reset]
  have hscreen : ∀ r c, State.reset.fb.get r c = false := get_blankScreen
  exact ⟨fun _ => rfl, hregs, rfl, hstack, rfl, rfl, rfl, rfl, hscreen, rfl, rfl, rfl, rfl, rfl, rfl,
    fun _ => get_reset_font, fun _ => get_reset_outside⟩

end Sys2Proof.Machine
end

section
/-! PROOFS. Memory: a byte store changes one byte (R41, R42), and stored code is what the next fetch reads (R43, R48). -/

namespace Sys2Proof.Machine

/-- Settles O20, by the side of the bound the address is on. -/
theorem byteStoreChangesOneByte : Obligations.ByteStoreChangesOneByte := by
  intro m a b
  refine ⟨fun ha => ⟨m.set a b, memWrite_ok ha, Memory.wf_set ha, fun a' ha' => ?_⟩,
    fun ha => ⟨memWrite_error ha, memRead_error ha⟩⟩
  rw [memRead_ok ha', Memory.get_set]

/-- A block that ends inside memory raises nothing. -/
theorem pastEnd_of_le {s : State} {n : Nat} (h : s.idx.toNat + n ≤ 4096) : pastEnd s n = none :=
  if_neg (by omega)

/-- The byte at `I + j` after the registers 0 to `x` are stored at `I` (R105). -/
theorem get_stored_regsFrom {j x : Nibble} (h : j.toNat ≤ x.toNat) (t : State) :
    (stored (regsFrom t.v 0 (x.toNat + 1)) t).mem.get (t.idx.toNat + j.toNat) = readV t j := by
  have hlen := length_regsFrom_zero t.v x
  have hoff : t.idx.toNat + j.toNat - t.idx.toNat = j.toNat := Nat.add_sub_cancel_left ..
  rw [stored, get_copyBytes, dif_pos ⟨Nat.le_add_right .., by omega⟩, regsFrom_getElem]
  simp only [hoff, Nat.zero_add, readV]

/-- Where `PC` is on a stored register that is not the last, the next fetch reads it and the one after it (R43). -/
theorem toNat_fetchWord_stored_regsFrom {k x : Nibble} {t : State} (hk : k.toNat < x.toNat)
    (hpc : t.pc.toNat = t.idx.toNat + k.toNat) :
    (fetchWord (stored (regsFrom t.v 0 (x.toNat + 1)) t)).toNat =
      (readV t k).toNat * 256 + (readV t (k + 1)).toNat := by
  have hsucc : (k + 1).toNat = k.toNat + 1 := by bv_omega
  have hhigh := get_stored_regsFrom hk.le t
  have hlow := get_stored_regsFrom (j := k + 1) (x := x) (by omega) t
  rw [← hpc] at hhigh
  rw [hsucc, ← Nat.add_assoc, ← hpc] at hlow
  rw [← hhigh, ← hlow]
  exact wordOfBytes_toNat ..

/-- Settles O23: `Fx55` completes, and `PC` is then on a register it has stored. -/
theorem storedCodeIsFetchedNext : Obligations.StoredCodeIsFetchedNext := by
  intro s x k hin hk hpc
  have hnext : (s.pc + 2#16).toNat = s.idx.toNat + k.toNat := by
    rw [BitVec.toNat_add, BitVec.toNat_ofNat]
    omega
  exact ⟨_, exec_of_raises_none (pastEnd_of_le hin),
    toNat_fetchWord_stored_regsFrom (t := advance (encode (.stRegs x)) s) hk hnext⟩

end Sys2Proof.Machine
end

section
/-! PROOFS. The decoder, the encoder and the opcode table agree (R51, R54, R55, R62). -/

namespace Sys2Proof

open Laws

/-! ### Decoding an encoded instruction -/

/-- Under the instruction's primary code the decoder reads back the fields the format assembled. -/
theorem decodeWord_encode (i : Instr) : decodeWord (encode i) = some i := by
  cases i with
  | cls | ret =>
    refine (decodeWord_op_0 (fieldOp_formatXK ..)).trans ?_
    rw [decodeFamily0, fieldX_formatXK, fieldKK_formatXK]
    rfl
  | jp => exact (decodeWord_op_1 (fieldOp_formatA ..)).trans (by rw [fieldNNN_formatA])
  | call => exact (decodeWord_op_2 (fieldOp_formatA ..)).trans (by rw [fieldNNN_formatA])
  | seImm => exact (decodeWord_op_3 (fieldOp_formatXK ..)).trans (by rw [fieldX_formatXK, fieldKK_formatXK])
  | sneImm => exact (decodeWord_op_4 (fieldOp_formatXK ..)).trans (by rw [fieldX_formatXK, fieldKK_formatXK])
  | seReg =>
    exact (decodeWord_op_5 (fieldOp_formatXYN ..)).trans
      (by rw [fieldX_formatXYN, fieldY_formatXYN, fieldN_formatXYN])
  | ldImm => exact (decodeWord_op_6 (fieldOp_formatXK ..)).trans (by rw [fieldX_formatXK, fieldKK_formatXK])
  | addImm => exact (decodeWord_op_7 (fieldOp_formatXK ..)).trans (by rw [fieldX_formatXK, fieldKK_formatXK])
  | ldReg | orReg | andReg | xorReg | addReg | sub | shr | subn | shl =>
    refine (decodeWord_op_8 (fieldOp_formatXYN ..)).trans ?_
    rw [decodeFamily8, fieldX_formatXYN, fieldY_formatXYN, fieldN_formatXYN]
    rfl
  | sneReg =>
    exact (decodeWord_op_9 (fieldOp_formatXYN ..)).trans
      (by rw [fieldX_formatXYN, fieldY_formatXYN, fieldN_formatXYN])
  | ldI => exact (decodeWord_op_A (fieldOp_formatA ..)).trans (by rw [fieldNNN_formatA])
  | jpV0 => exact (decodeWord_op_B (fieldOp_formatA ..)).trans (by rw [fieldNNN_formatA])
  | rnd => exact (decodeWord_op_C (fieldOp_formatXK ..)).trans (by rw [fieldX_formatXK, fieldKK_formatXK])
  | drw =>
    exact (decodeWord_op_D (fieldOp_formatXYN ..)).trans
      (by rw [fieldX_formatXYN, fieldY_formatXYN, fieldN_formatXYN])
  | skp | sknp =>
    refine (decodeWord_op_E (fieldOp_formatXK ..)).trans ?_
    rw [decodeFamilyE, fieldX_formatXK, fieldKK_formatXK]
    rfl
  | ldVxDT | ldVxK | ldDTVx | ldSTVx | addI | ldF | ldB | stRegs | ldRegs =>
    refine (decodeWord_op_F (fieldOp_formatXK ..)).trans ?_
    rw [decodeFamilyF, fieldX_formatXK, fieldKK_formatXK]
    rfl

/-- Settles O1. -/
theorem decodeOfEncodeIsIdentity : Obligations.DecodeOfEncodeIsIdentity := decodeWord_encode

/-- Settles O2: no format drops a field the decoder has read. -/
theorem encodeOfDecodeIsTheWord : Obligations.EncodeOfDecodeIsTheWord := fun _ _ => encode_of_decodeWord

/-! ### The secondary codes of a family (R55) -/

theorem fieldOp_eq_iff (w : Word) (op : Nibble) : fieldOp w = op ↔ w.toNat / 4096 = op.toNat := by
  have hw := w.isLt
  rw [← BitVec.toNat_inj, fieldOp, BitVec.extractLsb'_toNat, Nat.shiftRight_eq_div_pow]
  omega

theorem fieldKK_eq_iff (w : Word) (kk : Byte) : fieldKK w = kk ↔ w.toNat % 256 = kk.toNat := by
  rw [← BitVec.toNat_inj, fieldKK, BitVec.extractLsb'_toNat, Nat.shiftRight_zero]

theorem fieldN_eq_iff (w : Word) (n : Nibble) : fieldN w = n ↔ w.toNat % 16 = n.toNat := by
  rw [← BitVec.toNat_inj, fieldN, BitVec.extractLsb'_toNat, Nat.shiftRight_zero]

theorem ite_some_eq_none_iff {α : Type} (p : Prop) [Decidable p] (a : α) (o : Option α) :
    (if p then some a else o) = none ↔ ¬p ∧ o = none := by
  by_cases hp : p <;> simp [hp]

theorem decodeFamily0_eq_none_iff (w : Word) : decodeFamily0 w = none ↔ w.toNat % 256 ∉ [0xE0, 0xEE] := by
  simp [decodeFamily0, ite_some_eq_none_iff, fieldKK_eq_iff]

theorem decodeFamily8_eq_none_iff (w : Word) :
    decodeFamily8 w = none ↔ w.toNat % 16 ∈ [0x8, 0x9, 0xA, 0xB, 0xC, 0xD, 0xF] := by
  simp only [decodeFamily8, ite_some_eq_none_iff, fieldN_eq_iff, BitVec.reduceToNat, List.mem_cons, List.not_mem_nil,
    and_true, or_false]
  omega

theorem decodeFamilyE_eq_none_iff (w : Word) : decodeFamilyE w = none ↔ w.toNat % 256 ∉ [0x9E, 0xA1] := by
  simp [decodeFamilyE, ite_some_eq_none_iff, fieldKK_eq_iff]

theorem decodeFamilyF_eq_none_iff (w : Word) :
    decodeFamilyF w = none ↔ w.toNat % 256 ∉ [0x07, 0x0A, 0x15, 0x18, 0x1E, 0x29, 0x33, 0x55, 0x65] := by
  simp [decodeFamilyF, ite_some_eq_none_iff, fieldKK_eq_iff]

/-- The primary codes under which R54 looks at a secondary code. -/
def familyCodes : List Nibble := [0x0#4, 0x8#4, 0xE#4, 0xF#4]

theorem mem_familyCodes_iff (op : Nibble) :
    op ∈ familyCodes ↔ op = 0x0#4 ∨ op = 0x8#4 ∨ op = 0xE#4 ∨ op = 0xF#4 := by
  simp [familyCodes]

/-- Under every other primary code R54 answers at once, with one instruction. -/
theorem exists_mnemonic_of_op {op : Nibble} (hop : op ∉ familyCodes) :
    ∃ m, ∀ w, fieldOp w = op → (decodeWord w).map Instr.mnemonic = some m := by
  obtain rfl | rfl | rfl | rfl | rfl | rfl | rfl | rfl | rfl | rfl | rfl | rfl | rfl | rfl | rfl | rfl :=
    nibble_cases op
  · exact absurd (by decide) hop
  · exact ⟨"JP_nnn", fun _ h => by rw [decodeWord_op_1 h]; rfl⟩
  · exact ⟨"CALL_nnn", fun _ h => by rw [decodeWord_op_2 h]; rfl⟩
  · exact ⟨"SE_Vx__kk", fun _ h => by rw [decodeWord_op_3 h]; rfl⟩
  · exact ⟨"SNE_Vx__kk", fun _ h => by rw [decodeWord_op_4 h]; rfl⟩
  · exact ⟨"SE_Vx__Vy", fun _ h => by rw [decodeWord_op_5 h]; rfl⟩
  · exact ⟨"LD_Vx__kk", fun _ h => by rw [decodeWord_op_6 h]; rfl⟩
  · exact ⟨"ADD_Vx__kk", fun _ h => by rw [decodeWord_op_7 h]; rfl⟩
  · exact absurd (by decide) hop
  · exact ⟨"SNE_Vx__Vy", fun _ h => by rw [decodeWord_op_9 h]; rfl⟩
  · exact ⟨"LD_I__nnn", fun _ h => by rw [decodeWord_op_A h]; rfl⟩
  · exact ⟨"JP_V0__nnn", fun _ h => by rw [decodeWord_op_B h]; rfl⟩
  · exact ⟨"RND_Vx__kk", fun _ h => by rw [decodeWord_op_C h]; rfl⟩
  · exact ⟨"DRW_Vx__Vy__n", fun _ h => by rw [decodeWord_op_D h]; rfl⟩
  · exact absurd (by decide) hop
  · exact absurd (by decide) hop

theorem decodeWord_ne_none_of_op {w : Word} (hop : fieldOp w ∉ familyCodes) : decodeWord w ≠ none := by
  obtain ⟨m, hm⟩ := exists_mnemonic_of_op hop
  intro hnone
  simpa [hnone] using hm w rfl

/-- Settles O4, family by family; under every other primary code the decoder answers. -/
theorem unrecognizedWordsAreThoseOutsideTheCodes : Obligations.UnrecognizedWordsAreThoseOutsideTheCodes := by
  intro w
  by_cases hop : fieldOp w ∈ familyCodes
  · obtain hop | hop | hop | hop := (mem_familyCodes_iff _).1 hop
    · have hdiv : w.toNat / 4096 = 0 := (fieldOp_eq_iff ..).1 hop
      simp [decodeWord_op_0 hop, decodeFamily0_eq_none_iff, hdiv]
    · have hdiv : w.toNat / 4096 = 8 := (fieldOp_eq_iff ..).1 hop
      simp [decodeWord_op_8 hop, decodeFamily8_eq_none_iff, hdiv]
    · have hdiv : w.toNat / 4096 = 14 := (fieldOp_eq_iff ..).1 hop
      simp [decodeWord_op_E hop, decodeFamilyE_eq_none_iff, hdiv]
    · have hdiv : w.toNat / 4096 = 15 := (fieldOp_eq_iff ..).1 hop
      simp [decodeWord_op_F hop, decodeFamilyF_eq_none_iff, hdiv]
  · refine iff_of_false (decodeWord_ne_none_of_op hop) ?_
    simp only [mem_familyCodes_iff, fieldOp_eq_iff, BitVec.reduceToNat] at hop
    omega

/-! ### The opcode table (R51) -/

/-- The bits R54 examines under a primary code; the rest of the word is operand or ignored (R56). -/
def examinedBits (op : Nibble) : Word :=
  if op = 0x8#4 then 0xF00F#16 else if op ∈ familyCodes then 0xF0FF#16 else 0xF000#16

theorem fieldOp_and_examinedBits (w : Word) (op : Nibble) : fieldOp (w &&& examinedBits op) = fieldOp w := by
  have hones : (examinedBits op).extractLsb' 12 4 = BitVec.allOnes 4 := by revert op; decide
  rw [fieldOp, BitVec.extractLsb'_and, hones, BitVec.and_allOnes, fieldOp]

theorem fieldKK_and_F0FF (w : Word) : fieldKK (w &&& 0xF0FF#16) = fieldKK w :=
  BitVec.extractLsb'_and.trans BitVec.and_allOnes

theorem fieldN_and_F00F (w : Word) : fieldN (w &&& 0xF00F#16) = fieldN w :=
  BitVec.extractLsb'_and.trans BitVec.and_allOnes

theorem mnemonic_decodeFamily0_congr {v w : Word} (h : fieldKK v = fieldKK w) :
    (decodeFamily0 v).map Instr.mnemonic = (decodeFamily0 w).map Instr.mnemonic := by
  rw [decodeFamily0, decodeFamily0, h]
  split_ifs <;> rfl

theorem mnemonic_decodeFamily8_congr {v w : Word} (h : fieldN v = fieldN w) :
    (decodeFamily8 v).map Instr.mnemonic = (decodeFamily8 w).map Instr.mnemonic := by
  rw [decodeFamily8, decodeFamily8, h]
  split_ifs <;> rfl

theorem mnemonic_decodeFamilyE_congr {v w : Word} (h : fieldKK v = fieldKK w) :
    (decodeFamilyE v).map Instr.mnemonic = (decodeFamilyE w).map Instr.mnemonic := by
  rw [decodeFamilyE, decodeFamilyE, h]
  split_ifs <;> rfl

theorem mnemonic_decodeFamilyF_congr {v w : Word} (h : fieldKK v = fieldKK w) :
    (decodeFamilyF v).map Instr.mnemonic = (decodeFamilyF w).map Instr.mnemonic := by
  rw [decodeFamilyF, decodeFamilyF, h]
  split_ifs <;> rfl

/-- Which instruction a word is depends on the examined bits only. -/
theorem mnemonic_decodeWord_and_examinedBits (w : Word) :
    (decodeWord (w &&& examinedBits (fieldOp w))).map Instr.mnemonic = (decodeWord w).map Instr.mnemonic := by
  have hop := fieldOp_and_examinedBits w (fieldOp w)
  by_cases hfam : fieldOp w ∈ familyCodes
  · obtain h | h | h | h := (mem_familyCodes_iff _).1 hfam <;> rw [h] at hop ⊢
    · rw [decodeWord_op_0 hop, decodeWord_op_0 h]
      exact mnemonic_decodeFamily0_congr (fieldKK_and_F0FF w)
    · rw [decodeWord_op_8 hop, decodeWord_op_8 h]
      exact mnemonic_decodeFamily8_congr (fieldN_and_F00F w)
    · rw [decodeWord_op_E hop, decodeWord_op_E h]
      exact mnemonic_decodeFamilyE_congr (fieldKK_and_F0FF w)
    · rw [decodeWord_op_F hop, decodeWord_op_F h]
      exact mnemonic_decodeFamilyF_congr (fieldKK_and_F0FF w)
  · obtain ⟨m, hm⟩ := exists_mnemonic_of_op hfam
    rw [hm _ hop, hm _ rfl]

/-- A row's mask is the bits R54 examines, and its match value decodes to its mnemonic. -/
theorem opcodeTable_decodes :
    ∀ r ∈ opcodeTable, r.mask = examinedBits (fieldOp r.value) ∧
      (decodeWord r.value).map Instr.mnemonic = some r.mnemonic := by decide

theorem mnemonic_decodeWord_of_hits {r : TableRow} {w : Word} (hr : r ∈ opcodeTable) (h : r.hits w = true) :
    (decodeWord w).map Instr.mnemonic = some r.mnemonic := by
  obtain ⟨hmask, hdec⟩ := opcodeTable_decodes r hr
  have hvalue : w &&& examinedBits (fieldOp r.value) = r.value := hmask ▸ eq_of_beq h
  have hop : fieldOp r.value = fieldOp w := hvalue ▸ fieldOp_and_examinedBits ..
  rw [← mnemonic_decodeWord_and_examinedBits, ← hop, hvalue, hdec]

/-- Every instruction's word is in its own row. -/
theorem tableMatch_statement (i : Instr) : TableMatch.Statement i := by
  cases i
  exacts [TableMatch.cls _, TableMatch.ret _, TableMatch.jp _, TableMatch.call _, TableMatch.seImm _ _,
    TableMatch.sneImm _ _, TableMatch.seReg _ _ _, TableMatch.ldImm _ _, TableMatch.addImm _ _, TableMatch.ldReg _ _,
    TableMatch.orReg _ _, TableMatch.andReg _ _, TableMatch.xorReg _ _, TableMatch.addReg _ _, TableMatch.sub _ _,
    TableMatch.shr _ _, TableMatch.subn _ _, TableMatch.shl _ _, TableMatch.sneReg _ _ _, TableMatch.ldI _,
    TableMatch.jpV0 _, TableMatch.rnd _ _, TableMatch.drw _ _ _, TableMatch.skp _, TableMatch.sknp _,
    TableMatch.ldVxDT _, TableMatch.ldVxK _, TableMatch.ldDTVx _, TableMatch.ldSTVx _, TableMatch.addI _,
    TableMatch.ldF _, TableMatch.ldB _, TableMatch.stRegs _, TableMatch.ldRegs _]

theorem decodeWord_eq_none_of_no_row {w : Word} (h : ∀ r ∈ opcodeTable, ¬r.hits w = true) :
    decodeWord w = none := by
  rw [Option.eq_none_iff_forall_ne_some]
  intro i hdec
  obtain ⟨r, hr, -, hhits⟩ := tableMatch_statement i
  exact h r hr (encode_of_decodeWord hdec ▸ hhits)

/-- Settles O3: a row that has the word names what it decodes to, and a word that decodes is in a row. -/
theorem decoderAgreesWithOpcodeTable : Obligations.DecoderAgreesWithOpcodeTable := by
  intro w
  cases hfind : opcodeTable.find? (fun r => r.hits w) with
  | none => rw [decodeWord_eq_none_of_no_row (List.find?_eq_none.1 hfind)]; rfl
  | some r =>
    have hhits : r.hits w = true := List.find?_some (p := fun q : TableRow => q.hits w) hfind
    exact mnemonic_decodeWord_of_hits (List.mem_of_find?_eq_some hfind) hhits

/-- Settles O5, by running the decoder on each word. -/
theorem exampleWordsDecode : Obligations.ExampleWordsDecode := by
  unfold Obligations.ExampleWordsDecode
  decide

end Sys2Proof
end

section
/-! PROOFS. The step: what it fetches, how it ends, and what its timer phase counts (R65 to R74, R123, R137). -/

namespace Sys2Proof.Machine

/-! ### The dispatch (R65, R68) -/

theorem exists_exec (i : Instr) (s : State) : ∃ t, exec i s = .next t := by
  rw [exec_eq_performOrRaise]
  obtain ⟨t, -, h⟩ | ⟨e, -, h⟩ := performOrRaise_cases i (rule i) s
  · exact ⟨t, h⟩
  · exact ⟨_, h⟩

/-- Settles O6: sampling the inputs and clearing the outputs changes neither the fetch nor the word it reads. -/
theorem stepRunsTheDecodedInstruction : Obligations.StepRunsTheDecodedInstruction := by
  intro s i hrun hfetch hdec
  obtain ⟨t, hexec⟩ := exists_exec i (stepStart s)
  unfold stepStart at hexec
  rw [hexec]
  exact (step_running hrun).trans (runCycle_of_exec (s := stepStart s) hfetch hdec hexec)

/-! ### How a step ends (R74) -/

/-- Settles O10, by the five ways a step can go. -/
theorem everyStepAnswersNext : Obligations.EveryStepAnswersNext := by
  intro s
  obtain ⟨t, hstep, hcase⟩ := exists_stepCase s
  refine ⟨t, hstep, ?_⟩
  cases hcase with
  | inert hfaulted => exact .inr (.inr ⟨_, hfaulted, hfaulted⟩)
  | fetchFault hrun | raised hrun => exact .inr (.inl ⟨_, hrun, rfl⟩)
  | unrecognized hrun => exact .inl ⟨hrun, hrun⟩
  | completed hrun => exact .inl ⟨hrun, (effect_status ..).trans hrun⟩

/-! ### The frames of the step's phases -/

theorem ChangesOnly.refl {ps : List Part} (s : State) : ChangesOnly ps s s := by
  intro p _
  cases p <;> simp [Part.Same]

theorem changesOnly_stepStart (s : State) : ChangesOnly [.tone, .unrec, .env, .loadOpen] s (stepStart s) := by
  intro p hp
  cases p <;> simp [Part.Same, readV, stepStart] at hp ⊢

theorem changesOnly_raise (e : FaultSignal) (w : Word) (s : State) :
    ChangesOnly [.status, .faultInfo, .tone, .unrec] s (raise e w s) := by
  intro p hp
  cases p <;> simp [Part.Same, readV] at hp ⊢

theorem changesOnly_clearOutputs (s : State) : ChangesOnly [.tone, .unrec] s (clearOutputs s) := by
  intro p hp
  cases p <;> simp [Part.Same, readV] at hp ⊢

theorem changesOnly_reportUnrecognized (w : Word) (s : State) :
    ChangesOnly [.pc, .ir, .unrec] s (reportUnrecognized w s) := by
  intro p hp
  cases p <;> simp [Part.Same, readV] at hp ⊢

theorem changesOnly_timerPhase (s : State) : ChangesOnly [.dt, .st, .tone] s (timerPhase s) := by
  intro p hp
  cases p <;> simp [Part.Same, readV] at hp ⊢

/-- A fault taken by a step changes, of the state the step began in, only what R127 names and the model's own fields. -/
theorem changesOnly_raise_stepStart (e : FaultSignal) (w : Word) (s : State) :
    ChangesOnly [.status, .faultInfo, .tone, .unrec, .env, .loadOpen] s (raise e w (stepStart s)) :=
  ((changesOnly_stepStart s).trans (changesOnly_raise e w _)).mono (by simp)

/-! ### The fetch (R66, R128) -/

theorem toNat_fetchWord (s : State) :
    (fetchWord s).toNat = (s.mem.get s.pc.toNat).toNat * 256 + (s.mem.get (s.pc.toNat + 1)).toNat :=
  wordOfBytes_toNat ..

/-- A step whose fetch can read does not take the fault of the fetch. -/
theorem StepCase.status_ne_fetchFault {s t : State} (h : StepCase s t) (hrun : s.status = .running)
    (hfetch : fetchable s = true) : t.status ≠ .faulted .outOfBoundsFetch := by
  cases h with
  | inert hfaulted => simp [hrun] at hfaulted
  | fetchFault _ hnot => simp [hfetch] at hnot
  | unrecognized => simp [stepStart, hrun]
  | raised _ _ _ hraises => simpa using raises_ne_fetch hraises
  | completed => simp [stepStart, hrun]

/-- A step that completes has put the fetched word into `IR`. -/
theorem StepCase.ir_eq_fetchWord {s t : State} (h : StepCase s t) (hrun : t.status = .running) :
    t.ir = fetchWord s := by
  cases h with
  | inert hfaulted => simp [hfaulted] at hrun
  | fetchFault | raised => cases hrun
  | unrecognized => rfl
  | completed => exact effect_ir ..

/-- A step whose fetch cannot read is the entry into the fault of the fetch. -/
theorem step_of_not_fetchable {s : State} (hrun : s.status = .running) (hfetch : fetchable s = false) :
    step s = .next (raise ⟨.outOfBoundsFetch, none⟩ 0#16 (stepStart s)) :=
  (step_running hrun).trans (runCycle_of_not_fetchable (s := stepStart s) hfetch)

/-- Settles O7, by the side of the bound the fetch is on. -/
theorem fetchReadsTwoBytesOrFaults : Obligations.FetchReadsTwoBytesOrFaults := by
  intro s hrun
  cases hfetch : fetchable s with
  | true =>
    have hin := (fetchable_iff s).1 hfetch
    obtain ⟨t, hstep, hcase⟩ := exists_stepCase s
    refine ⟨t, hstep, fun _ => ⟨hcase.status_ne_fetchFault hrun hfetch, fun ht => ?_⟩, fun hout => by omega⟩
    rw [hcase.ir_eq_fetchWord ht, toNat_fetchWord]
  | false =>
    have hout : ¬ s.pc.toNat + 1 < 4096 := by simp [← fetchable_iff, hfetch]
    exact ⟨_, step_of_not_fetchable hrun hfetch, fun hin => absurd hin hout,
      fun _ => ⟨rfl, rfl, rfl, rfl, changesOnly_raise_stepStart _ _ s⟩⟩

/-! ### The timer phase (R69, R70, R123) -/

theorem timerPhase_counts (u : State) :
    (timerPhase u).dt.toNat = u.dt.toNat - 1 ∧ (timerPhase u).st.toNat = u.st.toNat - 1 ∧
      (timerPhase u).tone = decide (u.st = 1) :=
  ⟨countDown_toNat _, countDown_toNat _, rfl⟩

/-- The delay timer before its count: what `Fx15` wrote in the same step, else what it was (R120, R123). -/
def delayBeforeCount (decoded : Option Instr) (s : State) : Byte :=
  match decoded with
  | some (.ldDTVx x) => readV s x
  | _ => s.dt

/-- The sound timer before its count: what `Fx18` wrote in the same step, else what it was (R121, R123). -/
def soundBeforeCount (decoded : Option Instr) (s : State) : Byte :=
  match decoded with
  | some (.ldSTVx x) => readV s x
  | _ => s.st

theorem effect_dt (i : Instr) (t : State) : (effect i t).dt = delayBeforeCount (some i) t := by
  cases i with
  | ldVxK x => exact changesOnly_awaitKey x t .dt (by decide)
  | _ => rfl

theorem effect_st (i : Instr) (t : State) : (effect i t).st = soundBeforeCount (some i) t := by
  cases i with
  | ldVxK x => exact changesOnly_awaitKey x t .st (by decide)
  | _ => rfl

/-- The timers are read off the state before the advance and the sampling of the inputs, which leave `V`, `DT`, `ST`. -/
theorem delayBeforeCount_advance_stepStart (i : Instr) (w : Word) (s : State) :
    delayBeforeCount (some i) (advance w (stepStart s)) = delayBeforeCount (some i) s := by
  cases i <;> rfl

theorem soundBeforeCount_advance_stepStart (i : Instr) (w : Word) (s : State) :
    soundBeforeCount (some i) (advance w (stepStart s)) = soundBeforeCount (some i) s := by
  cases i <;> rfl

/-- A step that completes ends in the timer phase, and only the two writers have touched the timers before it. -/
theorem StepCase.exists_timerPhase {s t : State} (h : StepCase s t) (hrun : t.status = .running) :
    ∃ u, t = timerPhase u ∧ u.dt = delayBeforeCount (decodeWord (fetchWord s)) s ∧
      u.st = soundBeforeCount (decodeWord (fetchWord s)) s := by
  cases h with
  | inert hfaulted => simp [hfaulted] at hrun
  | fetchFault | raised => cases hrun
  | unrecognized _ _ hdec =>
    rw [hdec]
    exact ⟨_, rfl, rfl, rfl⟩
  | completed _ _ hdec _ =>
    rw [hdec]
    exact ⟨_, rfl, (effect_dt ..).trans (delayBeforeCount_advance_stepStart ..),
      (effect_st ..).trans (soundBeforeCount_advance_stepStart ..)⟩

/-- Settles O11: the timer phase counts what the instruction left in the timers. -/
theorem timersCountEveryCompletedStep : Obligations.TimersCountEveryCompletedStep := by
  intro s t _ hstep ht
  change t.dt.toNat = (delayBeforeCount (decodeWord (fetchWord s)) s).toNat - 1 ∧
    t.st.toNat = (soundBeforeCount (decodeWord (fetchWord s)) s).toNat - 1 ∧
    t.tone = decide (soundBeforeCount (decodeWord (fetchWord s)) s = 1)
  obtain ⟨u, rfl, hdt, hst⟩ := (stepCase_of_step hstep).exists_timerPhase ht
  rw [← hdt, ← hst]
  exact timerPhase_counts u

/-! ### An unrecognized word (R71, R133) -/

theorem step_of_decodeWord_none {s : State} (hrun : s.status = .running) (hfetch : fetchable s = true)
    (hdec : decodeWord (fetchWord s) = none) :
    step s = .next (timerPhase (reportUnrecognized (fetchWord s) (stepStart s))) :=
  (step_running hrun).trans (runCycle_of_decodeWord_none (s := stepStart s) hfetch hdec)

/-- Settles O8: the report, the advance and the timer phase, one after the other. -/
theorem unrecognizedWordIsReportedNoOp : Obligations.UnrecognizedWordIsReportedNoOp := by
  intro s hrun hfetch hdec
  obtain ⟨hdt, hst, htone⟩ := timerPhase_counts (reportUnrecognized (fetchWord s) (stepStart s))
  have hframe := ((changesOnly_stepStart s).trans (changesOnly_reportUnrecognized (fetchWord s) _)).trans
    (changesOnly_timerPhase _)
  exact ⟨_, step_of_decodeWord_none hrun hfetch hdec, rfl, rfl, toNat_pc_add_two hfetch, hdt, hst, htone,
    hframe.mono (by simp)⟩

/-! ### The faulted core (R72, R73, R137) -/

theorem run_succ_of_step {M : Host.Core} {s t : M.State} (h : M.step s = .next t) (n : Nat) :
    M.run (n + 1) s = M.run n t := by
  simp only [Host.Core.run, h]

/-- The first step of a faulted core clears its outputs, and the steps after it do nothing. -/
theorem run_succ_of_faulted {s : State} {c : Fault} (h : s.status = .faulted c) (n : Nat) :
    core.run (n + 1) s = .next (clearOutputs s) := by
  induction n generalizing s with
  | zero => exact run_succ_of_step (M := core) (step_faulted h) 0
  | succ n ih => exact (run_succ_of_step (M := core) (step_faulted h) (n + 1)).trans (ih h)

/-- Settles O9: no step, or the outputs cleared. -/
theorem faultedCoreIsInertUntilReset : Obligations.FaultedCoreIsInertUntilReset := by
  intro n s c h
  refine ⟨?_, rfl⟩
  cases n with
  | zero => exact ⟨s, rfl, h, fun hpos => absurd hpos (Nat.lt_irrefl 0), ChangesOnly.refl s⟩
  | succ n => exact ⟨_, run_succ_of_faulted h n, h, fun _ => ⟨rfl, rfl⟩, changesOnly_clearOutputs s⟩

end Sys2Proof.Machine
end

section
/-! PROOFS. An instruction run from its word: the word's fields, what runs, and its frame (R28, R51, R52, R67). -/

namespace Sys2Proof

/-- The mask 0xF000 leaves the primary code, so that a word has the primary code of its match value (R51). -/
theorem fieldOp_of_and_F000 {w v : Word} (h : w &&& 0xF000#16 = v) : fieldOp w = fieldOp v :=
  h ▸ (BitVec.extractLsb'_and.trans BitVec.and_allOnes).symm

theorem toNat_fieldNNN (w : Word) : (fieldNNN w).toNat = w.toNat % 4096 := by
  rw [fieldNNN, BitVec.extractLsb'_toNat, Nat.shiftRight_zero]

end Sys2Proof

namespace Sys2Proof.Machine

theorem toNat_zextAddr (a : Addr12) : (zextAddr a).toNat = a.toNat :=
  BitVec.toNat_setWidth_of_le (by decide)

/-- An instruction that raises nothing completes, with the word it was decoded from in `IR`. -/
theorem exec_of_decodeWord {w : Word} {i : Instr} {s : State} (hdec : decodeWord w = some i)
    (hraises : raises i s = none) : exec i s = .next (effect i (advance w s)) :=
  encode_of_decodeWord hdec ▸ exec_of_raises_none hraises

/-- The frame of an instruction that completes, its advance included. -/
theorem changesOnly_effect_advance (i : Instr) (w : Word) (s : State) :
    ChangesOnly (.pc :: .ir :: writesOf i) s (effect i (advance w s)) :=
  ((changesOnly_advance w s).trans (changesOnly_effect i _)).mono (by simp)

/-- A part that is back at its value leaves the list of what has changed. -/
theorem ChangesOnly.of_cons {q : Part} {ps : List Part} {s t : State} (h : ChangesOnly (q :: ps) s t)
    (hq : q.Same s t) : ChangesOnly ps s t := by
  intro p hp
  by_cases hpq : p = q
  · exact hpq ▸ hq
  · exact h p (by simp [hpq, hp])

/-- A step of a running core at an instruction that raises nothing: its rule, then the timer phase. -/
theorem step_of_raises_none {s : State} {i : Instr} (hrun : s.status = .running) (hfetch : fetchable s = true)
    (hdec : decodeWord (fetchWord s) = some i) (hraises : raises i s = none) :
    step s = .next (timerPhase (effect i (advance (fetchWord s) (stepStart s)))) := by
  have hexec := exec_of_decodeWord hdec ((raises_stepStart i s).trans hraises)
  have hdone := finish_running ((effect_status i (advance (fetchWord s) (stepStart s))).trans hrun)
  exact hdone ▸ (step_running hrun).trans (runCycle_of_exec (s := stepStart s) hfetch hdec hexec)

/-- The frame of such a step, where the instruction writes nothing but `PC` and `IR`. -/
theorem changesOnly_step_of_writesOf_nil {i : Instr} (h : writesOf i = []) (w : Word) (s : State) :
    ChangesOnly [.pc, .dt, .st, .ir, .tone, .unrec, .env, .loadOpen] s
      (timerPhase (effect i (advance w (stepStart s)))) := by
  have hrule := (changesOnly_stepStart s).trans (changesOnly_effect_advance i w _)
  exact (hrule.trans (changesOnly_timerPhase _)).mono (by simp [h])

end Sys2Proof.Machine
end

section
/-! PROOFS. Control transfer (R75 to R83, R129, R130): jumps, skips, call and return; and a program that has ended
(R160). -/

namespace Sys2Proof.Machine

/-! ### Call and return (R76, R78) -/

theorem toNat_sp_pushed (a : Word) {t : State} (h : t.sp.val < 16) : (pushed a t).sp.val = t.sp.val + 1 :=
  Nat.min_eq_left (Nat.succ_le_of_lt h)

/-- The newest slot holds the address pushed, every other slot what it held. -/
theorem getElem_stack_pushed (a : Word) (t : State) {k : Nat} (hk : k < 16) :
    (pushed a t).stack[k] = if t.sp.val = k then a else t.stack[k] :=
  Vector.getElem_setIfInBounds ..

/-- Settles O28, by whether a slot is free: the push and the jump, or the entry into the fault. -/
theorem callPushesReturnAddress : Obligations.CallPushesReturnAddress := by
  intro nnn s
  refine ⟨fun hfree => ?_, fun hfull => ⟨_, exec_of_raises_some (if_pos hfull), rfl, changesOnly_raise _ _ s⟩⟩
  have hraises : raises (.call nnn) s = none := if_neg (by omega)
  have hslot (k : Nat) (hk : k < 16) := getElem_stack_pushed (s.pc + 2#16) (advance (encode (.call nnn)) s) hk
  refine ⟨_, exec_of_raises_none hraises, toNat_zextAddr nnn,
    toNat_sp_pushed (s.pc + 2#16) (t := advance (encode (.call nnn)) s) hfree,
    (hslot s.sp.val hfree).trans (if_pos rfl), fun k hk hne => (hslot k hk).trans (if_neg hne.symm), ?_⟩
  exact (changesOnly_effect_advance (.call nnn) _ s).mono (by simp [writesOf])

theorem pc_popped {t : State} {k : Nat} (hk : k < 16) (h : t.sp.val = k + 1) : (popped t).pc = t.stack[k] := by
  simp only [popped, h, Nat.add_sub_cancel]

theorem toNat_sp_popped {t : State} {k : Nat} (h : t.sp.val = k + 1) : (popped t).sp.val = k := by
  simp only [popped, h, Nat.add_sub_cancel]

/-- Settles O29, by whether an address is held: the pop, or the entry into the fault. -/
theorem returnPopsReturnAddress : Obligations.ReturnPopsReturnAddress := by
  intro z s
  refine ⟨fun k hk hsp => ?_, fun hnone => ⟨_, exec_of_raises_some (if_pos hnone), rfl, changesOnly_raise _ _ s⟩⟩
  have hraises : raises (.ret z) s = none := if_neg (by omega)
  exact ⟨_, exec_of_raises_none hraises, pc_popped (t := advance _ s) hk hsp, toNat_sp_popped (t := advance _ s) hsp,
    changesOnly_effect_advance (.ret z) _ s⟩

/-- Settles O30: the return pops the slot the call has written, and `SP` is back at its value. -/
theorem callThenReturnComesBack : Obligations.CallThenReturnComesBack := by
  intro nnn z s hfree
  obtain ⟨t, hcall, -, hsp, htop, -, hframe⟩ := (callPushesReturnAddress nnn s).1 hfree
  obtain ⟨u, hret, hpc, hdepth, hframe'⟩ := (returnPopsReturnAddress z t).1 s.sp.val hfree hsp
  have hback : u.sp = s.sp := Fin.ext hdepth
  have hboth : ChangesOnly [.sp, .pc, .ir, .stack] s u := (hframe.trans hframe').mono (by simp)
  exact ⟨t, u, hcall, hret, hpc.trans htop, hback, hboth.of_cons hback⟩

/-! ### A program that has ended (R160) -/

/-- The word of a jump to `a`, as a number (R53). -/
theorem toNat_jump_word {a : Word} (h : a.toNat < 4096) : (0x1000#16 ||| a).toNat = 4096 + a.toNat := by
  rw [BitVec.toNat_or]
  exact (Nat.two_pow_add_eq_or_of_lt (i := 12) h 1).symm

/-- The word `0x1000 | a` of a 12-bit address is the jump to `a`. -/
theorem decodeWord_jump_word {a : Word} (h : a.toNat < 4096) :
    ∃ nnn, decodeWord (0x1000#16 ||| a) = some (.jp nnn) ∧ zextAddr nnn = a := by
  have hword := toNat_jump_word h
  have hdiv : (0x1000#16 ||| a).toNat / 4096 = 1 := by omega
  have hop : fieldOp (0x1000#16 ||| a) = 0x1#4 := (fieldOp_eq_iff ..).2 hdiv
  refine ⟨_, decodeWord_op_1 hop, BitVec.eq_of_toNat_eq ?_⟩
  rw [toNat_zextAddr, toNat_fieldNNN, hword]
  omega

/-- Whether a program has ended is read off the status, `PC` and memory. -/
theorem Terminated.of_same {s t : State} (h : Terminated s) (hstatus : Part.status.Same s t)
    (hpc : Part.pc.Same s t) (hmem : Part.mem.Same s t) : Terminated t := by
  simp only [Part.Same] at hstatus hpc hmem
  simpa only [Terminated, fetchable, fetchWord, hstatus, hpc, hmem] using h

/-- One step of a program that has ended: it has still ended, and its timers have counted once. -/
theorem Terminated.exists_step {s : State} (h : Terminated s) :
    ∃ t, step s = .next t ∧ Terminated t ∧ t.dt.toNat = s.dt.toNat - 1 ∧ t.st.toNat = s.st.toNat - 1 ∧
      ChangesOnly [.dt, .st, .ir, .tone, .unrec, .env, .loadOpen] s t := by
  have ⟨hrun, hfetch, hword⟩ := h
  have hlt := (fetchable_iff s).1 hfetch
  obtain ⟨nnn, hdec, htarget⟩ := decodeWord_jump_word (a := s.pc) (by omega)
  have hframe := (changesOnly_step_of_writesOf_nil (i := .jp nnn) rfl (fetchWord s) s).of_cons htarget
  exact ⟨_, step_of_raises_none hrun hfetch (hword ▸ hdec) rfl,
    h.of_same (hframe .status (by decide)) htarget (hframe .mem (by decide)),
    countDown_toNat _, countDown_toNat _, hframe⟩

/-- Settles O53, by induction on the number of steps. -/
theorem selfJumpStaysTerminated : Obligations.SelfJumpStaysTerminated := by
  intro n
  induction n with
  | zero => exact fun s h => ⟨h.1, s, rfl, h, rfl, rfl, ChangesOnly.refl s⟩
  | succ n ih =>
    intro s h
    obtain ⟨t, hstep, ht, hdt, hst, hframe⟩ := h.exists_step
    obtain ⟨hsafe, u, hrun, hu, hdt', hst', hframe'⟩ := ih t ht
    exact ⟨⟨h.1, t, hstep, hsafe⟩, u, (run_succ_of_step (M := core) hstep n).trans hrun, hu, by omega, by omega,
      (hframe.trans hframe').mono (by simp)⟩

/-! ### Jumps (R77, R83) -/

theorem fetchable_eq_false_iff (s : State) : fetchable s = false ↔ 4095 ≤ s.pc.toNat := by
  rw [Bool.eq_false_iff, Ne, fetchable_iff]
  omega

/-- Settles O24: the target is the low 12 bits of the word, all of them 1 only in 0x1FFF. -/
theorem jumpGoesToTarget : Obligations.JumpGoesToTarget := by
  intro w s h
  have hop : fieldOp w = 0x1#4 := fieldOp_of_and_F000 h
  have hdec : decodeWord w = some (.jp (fieldNNN w)) := decodeWord_op_1 hop
  have hpc := (toNat_zextAddr (fieldNNN w)).trans (toNat_fieldNNN w)
  refine ⟨hdec, _, exec_of_decodeWord hdec rfl, hpc, rfl, ?_, changesOnly_effect_advance (.jp _) w s⟩
  have hdiv : w.toNat / 4096 = 1 := (fieldOp_eq_iff ..).1 hop
  have hcorner : w = 0x1FFF#16 ↔ w.toNat = 0x1FFF := BitVec.toNat_inj.symm
  refine (fetchable_eq_false_iff _).trans (hcorner.trans ?_).symm
  change _ ↔ 4095 ≤ (zextAddr (fieldNNN w)).toNat
  omega

/-- The sum of an address and a byte does not wrap at 16 bits, and is not reduced to 12 (D3). -/
theorem toNat_zextAddr_add_zextByte (a : Addr12) (b : Byte) :
    (zextAddr a + zextByte b).toNat = a.toNat + b.toNat := by
  have ha := a.isLt
  have hb := b.isLt
  simp only [zextAddr, zextByte, BitVec.toNat_add, BitVec.toNat_setWidth]
  omega

/-- Settles O25: the target is the sum as a number, and the fetch reads below 4095. -/
theorem jumpWithOffsetAddsV0 : Obligations.JumpWithOffsetAddsV0 := by
  intro w s h
  have hdec : decodeWord w = some (.jpV0 (fieldNNN w)) := decodeWord_op_B (fieldOp_of_and_F000 h)
  have hpc := toNat_zextAddr_add_zextByte (fieldNNN w) (readV s 0#4)
  rw [toNat_fieldNNN] at hpc
  exact ⟨hdec, _, exec_of_decodeWord hdec rfl, hpc, rfl, hpc ▸ fetchable_eq_false_iff _,
    changesOnly_effect_advance (.jpV0 _) w s⟩

/-! ### Skips (R75, R79 to R82) -/

/-- A skip moves `PC` on by 2 from the next instruction, which is 4 from its own address. -/
theorem pc_skipIf_advance (c : Bool) (w : Word) (s : State) :
    (skipIf c (advance w s)).pc = if c then s.pc + 4 else s.pc + 2 := by
  rw [skipIf_pc, advance_pc, BitVec.add_assoc]
  rfl

theorem pc_skipIf_beq (a b : Byte) (w : Word) (s : State) :
    (skipIf (a == b) (advance w s)).pc = if a = b then s.pc + 4 else s.pc + 2 := by
  simp only [pc_skipIf_advance, beq_iff_eq]

theorem pc_skipIf_bne (a b : Byte) (w : Word) (s : State) :
    (skipIf (a != b) (advance w s)).pc = if a = b then s.pc + 2 else s.pc + 4 := by
  simp only [pc_skipIf_advance, bne_iff_ne, ite_not]

/-- Settles O26, each skip by its condition. -/
theorem skipsComparingImmediate : Obligations.SkipsComparingImmediate := by
  refine fun w s => ⟨fun h => ?_, fun h => ?_⟩
  · have hdec : decodeWord w = some (.seImm (fieldX w) (fieldKK w)) := decodeWord_op_3 (fieldOp_of_and_F000 h)
    exact ⟨hdec, _, exec_of_decodeWord hdec rfl, rfl, pc_skipIf_beq _ _ w s,
      changesOnly_effect_advance (.seImm _ _) w s⟩
  · have hdec : decodeWord w = some (.sneImm (fieldX w) (fieldKK w)) := decodeWord_op_4 (fieldOp_of_and_F000 h)
    exact ⟨hdec, _, exec_of_decodeWord hdec rfl, rfl, pc_skipIf_bne _ _ w s,
      changesOnly_effect_advance (.sneImm _ _) w s⟩

/-- Settles O27, each skip by its condition; the low nibble is in the word only. -/
theorem skipsComparingRegisters : Obligations.SkipsComparingRegisters := by
  refine fun x y n s => ⟨?_, ?_⟩
  · exact ⟨_, exec_of_raises_none rfl, rfl, pc_skipIf_beq _ _ _ s, changesOnly_effect_advance (.seReg _ _ _) _ s⟩
  · exact ⟨_, exec_of_raises_none rfl, rfl, pc_skipIf_bne _ _ _ s, changesOnly_effect_advance (.sneReg _ _ _) _ s⟩

end Sys2Proof.Machine
end

section
/-! PROOFS. Register load, arithmetic, logic, shift and random (R86 to R99): the value written, the flag, and the frame
the two kinds of rule have. -/

namespace Sys2Proof

/-- The mask 0xF00F leaves the primary code and the trailing nibble, so that a word is its match value with the two
register numbers put in (R51). -/
theorem formatXYN_of_and_F00F {w : Word} {op n : Nibble} (h : w &&& 0xF00F#16 = formatXYN op 0 0 n) :
    formatXYN op (fieldX w) (fieldY w) n = w := by
  have hop : fieldOp (w &&& 0xF00F#16) = fieldOp w := BitVec.extractLsb'_and.trans BitVec.and_allOnes
  have hn : fieldN (w &&& 0xF00F#16) = fieldN w := BitVec.extractLsb'_and.trans BitVec.and_allOnes
  rw [h] at hop hn
  exact formatXYN_of_fieldOp_fieldN (hop.symm.trans (fieldOp_formatXYN ..)) (hn.symm.trans (fieldN_formatXYN ..))

theorem decodeWord_of_encode {w : Word} {i : Instr} (h : encode i = w) : decodeWord w = some i :=
  h ▸ decodeWord_encode i

theorem toNat_add_fieldKK (b : Byte) (w : Word) : (b + fieldKK w).toNat = (b.toNat + w.toNat % 256) % 256 := by
  rw [BitVec.toNat_add, (fieldKK_eq_iff w _).1 rfl]

end Sys2Proof

namespace Sys2Proof.Machine

/-! ### The frames of the two kinds of rule -/

/-- A rule that writes one register, run after the advance. -/
theorem frame_writeV_advance (x : Nibble) (b : Byte) (w : Word) (s : State) :
    KeepsRegsBut [x] s (writeV x b (advance w s)) ∧ (writeV x b (advance w s)).pc = s.pc + 2 ∧
      (writeV x b (advance w s)).ir = w ∧ ChangesOnly [.v, .pc, .ir] s (writeV x b (advance w s)) :=
  ⟨fun _ hr => readV_writeV_of_ne (List.ne_of_not_mem_cons hr) b _, rfl, rfl,
    ((changesOnly_advance w s).trans (changesOnly_writeV x b _)).mono (by simp)⟩

/-- A rule that writes a result and then its flag, run after the advance. -/
theorem frame_writeWithFlag_advance (x : Nibble) (b : Byte) (f : Bool) (w : Word) (s : State) :
    KeepsRegsBut [x, 15#4] s (writeWithFlag x b f (advance w s)) ∧
      (writeWithFlag x b f (advance w s)).pc = s.pc + 2 ∧ (writeWithFlag x b f (advance w s)).ir = w ∧
      ChangesOnly [.v, .pc, .ir] s (writeWithFlag x b f (advance w s)) := by
  refine ⟨fun r hr => ?_, rfl, rfl,
    ((changesOnly_advance w s).trans (changesOnly_writeWithFlag x b f _)).mono (by simp)⟩
  obtain ⟨hx, hf⟩ : r ≠ x ∧ r ≠ flagReg := by simpa using hr
  exact readV_writeWithFlag_of_ne hx hf b f _

/-! ### One register, no flag (R86 to R91, R97) -/

/-- Settles O31. -/
theorem loadImmediateWritesTheByte : Obligations.LoadImmediateWritesTheByte := by
  intro w s h
  have hdec : decodeWord w = some (.ldImm (fieldX w) (fieldKK w)) := decodeWord_op_6 (fieldOp_of_and_F000 h)
  exact ⟨hdec, _, exec_of_decodeWord hdec rfl, readV_writeV_self .., frame_writeV_advance ..⟩

/-- Settles O32: the sum of two bytes wraps at 256. -/
theorem addImmediateWrapsWithoutFlag : Obligations.AddImmediateWrapsWithoutFlag := by
  intro w s h
  have hdec : decodeWord w = some (.addImm (fieldX w) (fieldKK w)) := decodeWord_op_7 (fieldOp_of_and_F000 h)
  exact ⟨hdec, _, exec_of_decodeWord hdec rfl,
    (congrArg BitVec.toNat (readV_writeV_self ..)).trans (toNat_add_fieldKK _ w), frame_writeV_advance ..⟩

/-- Settles O33. -/
theorem copyRegisterCopies : Obligations.CopyRegisterCopies := by
  intro w s h
  have hdec : decodeWord w = some (.ldReg (fieldX w) (fieldY w)) := decodeWord_of_encode (formatXYN_of_and_F00F h)
  exact ⟨hdec, _, exec_of_decodeWord hdec rfl, readV_writeV_self .., frame_writeV_advance ..⟩

theorem getLsbD_readV_writeV_self (x : Nibble) (b : Byte) (t : State) (k : Nat) :
    (readV (writeV x b t) x).getLsbD k = b.getLsbD k := by
  rw [readV_writeV_self]

/-- Settles O34, each operation by what it does to one bit. -/
theorem logicCombinesBitByBit : Obligations.LogicCombinesBitByBit := by
  refine fun w s => ⟨fun h => ?_, fun h => ?_, fun h => ?_⟩
  · have hdec : decodeWord w = some (.orReg (fieldX w) (fieldY w)) := decodeWord_of_encode (formatXYN_of_and_F00F h)
    exact ⟨hdec, _, exec_of_decodeWord hdec rfl,
      fun _ => (getLsbD_readV_writeV_self ..).trans BitVec.getLsbD_or, frame_writeV_advance ..⟩
  · have hdec : decodeWord w = some (.andReg (fieldX w) (fieldY w)) := decodeWord_of_encode (formatXYN_of_and_F00F h)
    exact ⟨hdec, _, exec_of_decodeWord hdec rfl,
      fun _ => (getLsbD_readV_writeV_self ..).trans BitVec.getLsbD_and, frame_writeV_advance ..⟩
  · have hdec : decodeWord w = some (.xorReg (fieldX w) (fieldY w)) := decodeWord_of_encode (formatXYN_of_and_F00F h)
    exact ⟨hdec, _, exec_of_decodeWord hdec rfl,
      fun _ => (getLsbD_readV_writeV_self ..).trans BitVec.getLsbD_xor, frame_writeV_advance ..⟩

/-- Settles O38: the byte masked is the sampled input, whatever it is. -/
theorem randomByteIsMasked : Obligations.RandomByteIsMasked := by
  intro x kk s
  exact ⟨_, exec_of_raises_none rfl, fun _ => (getLsbD_readV_writeV_self ..).trans BitVec.getLsbD_and,
    frame_writeV_advance ..⟩

/-! ### A result and its flag (R92 to R96, R99) -/

/-- The result, as a number, in a destination that is not the flag register. -/
theorem toNat_readV_writeWithFlag_self {x : Nibble} (hx : x ≠ flagReg) (b : Byte) (f : Bool) (t : State) :
    (readV (writeWithFlag x b f t) x).toNat = b.toNat := by
  rw [readV_writeWithFlag, if_neg hx, if_pos rfl]

theorem readV_writeWithFlag_flagReg (x : Nibble) (b : Byte) (f : Bool) (t : State) :
    readV (writeWithFlag x b f t) flagReg = flagByte f :=
  readV_writeV_self ..

theorem flagByte_carryFlag (a b : Byte) :
    flagByte (carryFlag a b) = if 255 < a.toNat + b.toNat then 1 else 0 := by
  simp only [flagByte, carryFlag, Nat.blt_eq]
  rfl

theorem flagByte_notBorrowFlag (a b : Byte) :
    flagByte (notBorrowFlag a b) = if b.toNat ≤ a.toNat then 1 else 0 := by
  simp only [flagByte, notBorrowFlag, Nat.ble_eq]
  rfl

theorem toNat_flagByte (f : Bool) : (flagByte f).toNat = f.toNat := by cases f <;> rfl

/-- The bit a shift right loses is the remainder of the halving. -/
theorem toNat_flagByte_shrFlag (a : Byte) : (flagByte (shrFlag a)).toNat = a.toNat % 2 := by
  rw [toNat_flagByte, shrFlag, BitVec.getLsbD, Nat.toNat_testBit, pow_zero, Nat.div_one]

/-- The bit a shift left loses is the carry of the doubling. -/
theorem toNat_flagByte_shlFlag (a : Byte) : (flagByte (shlFlag a)).toNat = a.toNat / 128 := by
  have ha := a.isLt
  rw [toNat_flagByte, shlFlag, BitVec.getLsbD, Nat.toNat_testBit]
  omega

theorem toNat_sub_byte (a b : Byte) : (a - b).toNat = (a.toNat + 256 - b.toNat) % 256 := by
  have hb := b.isLt
  rw [BitVec.toNat_sub]
  omega

theorem toNat_shiftRight_one (a : Byte) : (a >>> 1).toNat = a.toNat / 2 := BitVec.toNat_ushiftRight ..

theorem toNat_shiftLeft_one (a : Byte) : (a <<< 1).toNat = 2 * a.toNat % 256 := by
  rw [BitVec.toNat_shiftLeft, Nat.shiftLeft_eq, Nat.mul_comm]

/-- Settles O35. -/
theorem addRegistersSetsCarry : Obligations.AddRegistersSetsCarry := by
  intro x y s
  exact ⟨_, exec_of_raises_none rfl, fun hx => (toNat_readV_writeWithFlag_self hx ..).trans (BitVec.toNat_add ..),
    (readV_writeWithFlag_flagReg ..).trans (flagByte_carryFlag ..), frame_writeWithFlag_advance ..⟩

/-- An instruction whose rule writes the difference of two bytes and its flag (R93, R95). -/
theorem exists_exec_of_difference {i : Instr} {x : Nibble} {a b : Byte} {s : State} (hraises : raises i s = none)
    (hrule : effect i (advance (encode i) s) = writeWithFlag x (a - b) (notBorrowFlag a b) (advance (encode i) s)) :
    ∃ t, exec i s = .next t ∧ (x ≠ 15#4 → (readV t x).toNat = (a.toNat + 256 - b.toNat) % 256) ∧
      readV t 15#4 = (if b.toNat ≤ a.toNat then 1 else 0) ∧
      KeepsRegsBut [x, 15#4] s t ∧ t.pc = s.pc + 2 ∧ t.ir = encode i ∧ ChangesOnly [.v, .pc, .ir] s t :=
  ⟨_, hrule ▸ exec_of_raises_none hraises,
    fun hx => (toNat_readV_writeWithFlag_self hx ..).trans (toNat_sub_byte a b),
    (readV_writeWithFlag_flagReg ..).trans (flagByte_notBorrowFlag a b), frame_writeWithFlag_advance ..⟩

/-- Settles O36: one difference, with the operands in either order. -/
theorem subtractSetsNotBorrow : Obligations.SubtractSetsNotBorrow :=
  fun _ _ _ => ⟨exists_exec_of_difference rfl rfl, exists_exec_of_difference rfl rfl⟩

/-- Settles O37: the quotient and the bit lost, each computed from the old value. -/
theorem shiftsKeepTheLostBit : Obligations.ShiftsKeepTheLostBit := by
  refine fun x y s => ⟨?_, ?_⟩
  · exact ⟨_, exec_of_raises_none rfl,
      fun hx => (toNat_readV_writeWithFlag_self hx ..).trans (toNat_shiftRight_one _),
      (congrArg BitVec.toNat (readV_writeWithFlag_flagReg ..)).trans (toNat_flagByte_shrFlag _),
      frame_writeWithFlag_advance ..⟩
  · exact ⟨_, exec_of_raises_none rfl,
      fun hx => (toNat_readV_writeWithFlag_self hx ..).trans (toNat_shiftLeft_one _),
      (congrArg BitVec.toNat (readV_writeWithFlag_flagReg ..)).trans (toNat_flagByte_shlFlag _),
      frame_writeWithFlag_advance ..⟩

end Sys2Proof.Machine
end

section
/-! PROOFS. Index register and memory (R100 to R107): the address put in `I`, the flag of `Fx1E`, and the blocks stored
and loaded at `I`. -/

namespace Sys2Proof.Machine

/-! ### The index register (R101 to R103) -/

/-- Settles O39: the address is the low 12 bits of the word. -/
theorem loadIndexWritesTheAddress : Obligations.LoadIndexWritesTheAddress := by
  intro w s h
  have hdec : decodeWord w = some (.ldI (fieldNNN w)) := decodeWord_op_A (fieldOp_of_and_F000 h)
  exact ⟨hdec, _, exec_of_decodeWord hdec rfl, (toNat_zextAddr _).trans (toNat_fieldNNN w), rfl, rfl,
    (changesOnly_effect_advance (.ldI _) w s).mono (by simp [writesOf])⟩

theorem toNat_add_zextByte (a : Word) (b : Byte) : (a + zextByte b).toNat = (a.toNat + b.toNat) % 65536 := by
  rw [BitVec.toNat_add, zextByte, BitVec.toNat_setWidth_of_le (by decide)]

theorem flagByte_indexFlag (a : Word) (b : Byte) :
    flagByte (indexFlag a b) = if 0x0FFF < a.toNat + b.toNat then 1 else 0 := by
  simp only [flagByte, indexFlag, Nat.blt_eq]
  rfl

/-- Settles O40: the flag is written last, from the sum with the old `I` and the old `V[x]`. -/
theorem addIndexFlagsOverflow : Obligations.AddIndexFlagsOverflow := by
  intro x s
  exact ⟨_, exec_of_raises_none rfl, toNat_add_zextByte s.idx (readV s x),
    (readV_writeV_self ..).trans (flagByte_indexFlag s.idx (readV s x)),
    fun _ hr => readV_writeV_of_ne (List.ne_of_not_mem_cons hr) _ _, rfl, rfl,
    (changesOnly_effect_advance (.addI x) _ s).mono (by simp [writesOf])⟩

theorem toNat_lowNibble (b : Byte) : (lowNibble b).toNat = b.toNat % 16 := by
  rw [lowNibble, BitVec.extractLsb'_toNat, Nat.shiftRight_zero]

/-- The address of a glyph does not wrap at 16 bits. -/
theorem toNat_glyphAddr (g : Nibble) : (glyphAddr g).toNat = 0x050 + 5 * g.toNat := by
  have hg := g.isLt
  rw [glyphAddr, BitVec.toNat_ofNat]
  exact Nat.mod_eq_of_lt (show 0x050 + 5 * g.toNat < 2 ^ 16 by omega)

/-- Settles O41. -/
theorem glyphAddressIsFiveTimesTheNibble : Obligations.GlyphAddressIsFiveTimesTheNibble := by
  intro x s
  have haddr := toNat_glyphAddr (lowNibble (readV s x))
  rw [toNat_lowNibble] at haddr
  exact ⟨_, exec_of_raises_none rfl, haddr, rfl, rfl,
    (changesOnly_effect_advance (.ldF x) _ s).mono (by simp [writesOf])⟩

/-! ### Blocks stored at `I` (R104, R105) -/

theorem get_stored_add {bs : List Byte} {k : Nat} (hk : k < bs.length) (t : State) :
    (stored bs t).mem.get (t.idx.toNat + k) = bs[k] := by
  simp only [stored, get_copyBytes, Nat.add_sub_cancel_left, Nat.le_add_right, true_and, dif_pos hk]

/-- A rule that stores a block at `I`, run after the advance. -/
theorem frame_stored_advance (bs : List Byte) (w : Word) (s : State) :
    KeepsBytesBut s.idx.toNat bs.length s (stored bs (advance w s)) ∧ (stored bs (advance w s)).pc = s.pc + 2 ∧
      (stored bs (advance w s)).ir = w ∧ ChangesOnly [.mem, .pc, .ir] s (stored bs (advance w s)) := by
  refine ⟨fun b hb => ?_, rfl, rfl,
    ((changesOnly_advance w s).trans (changesOnly_stored bs _)).mono (by simp)⟩
  exact (get_copyBytes ..).trans (dif_neg (by rw [advance_idx]; omega))

/-- A byte is the value of its three decimal digits, which fit a byte each. -/
theorem exists_bcdDigits (a : Byte) :
    ∃ h t o : Byte, bcdDigits a = [h, t, o] ∧ h.toNat * 100 + t.toNat * 10 + o.toNat = a.toNat ∧
      t.toNat ≤ 9 ∧ o.toNat ≤ 9 := by
  have ha := a.isLt
  refine ⟨_, _, _, rfl, ?_⟩
  simp only [BitVec.toNat_ofNat]
  omega

theorem get_stored_three (a b c : Byte) (t : State) :
    (stored [a, b, c] t).mem.get t.idx.toNat = a ∧ (stored [a, b, c] t).mem.get (t.idx.toNat + 1) = b ∧
      (stored [a, b, c] t).mem.get (t.idx.toNat + 2) = c :=
  ⟨get_stored_add (k := 0) (by simp) t, get_stored_add (k := 1) (by simp) t, get_stored_add (k := 2) (by simp) t⟩

/-- Settles O42: the three bytes stored are the three digits. -/
theorem bcdStoresThreeDigits : Obligations.BcdStoresThreeDigits := by
  intro x s h
  obtain ⟨hundreds, tens, ones, hdigits, hsum, htens, hones⟩ := exists_bcdDigits (readV s x)
  have hraises : raises (.ldB x) s = none := pastEnd_of_le h
  have hrule : effect (.ldB x) (advance (encode (.ldB x)) s) =
      stored [hundreds, tens, ones] (advance (encode (.ldB x)) s) := congrArg (stored · _) hdigits
  obtain ⟨hget, hget1, hget2⟩ := get_stored_three hundreds tens ones (advance (encode (.ldB x)) s)
  rw [advance_idx] at hget hget1 hget2
  refine ⟨_, (exec_of_raises_none hraises).trans (congrArg _ hrule), ?_⟩
  rw [hget, hget1, hget2]
  exact ⟨hsum, htens, hones, frame_stored_advance [hundreds, tens, ones] _ s⟩

/-- Settles O43. -/
theorem storeRegistersInOrder : Obligations.StoreRegistersInOrder := by
  intro x s h
  have hframe := frame_stored_advance (regsFrom s.v 0 (x.toNat + 1)) (encode (.stRegs x)) s
  rw [length_regsFrom_zero] at hframe
  exact ⟨_, exec_of_raises_none (pastEnd_of_le h), fun _ hk => get_stored_regsFrom hk (advance _ s), hframe⟩

/-! ### Blocks loaded from `I` (R106) -/

/-- The registers 0 to `x`, loaded from `I` up, hold each its byte. -/
theorem readV_setRegsFrom_bytesAtI {k x : Nibble} (h : k.toNat ≤ x.toNat) (t : State) :
    readV { t with v := setRegsFrom t.v 0 (bytesAtI (x.toNat + 1) t) } k = t.mem.get (t.idx.toNat + k.toNat) := by
  have hlt : k.toNat < (bytesAtI (x.toNat + 1) t).length := by rw [length_bytesAtI]; omega
  rw [readV, setRegsFrom_getElem, dif_pos ⟨Nat.zero_le _, hlt⟩]
  simp [bytesAtI]

/-- Settles O44, by the side of `x` the register is on. -/
theorem loadRegistersInOrder : Obligations.LoadRegistersInOrder := by
  intro x s h
  refine ⟨_, exec_of_raises_none (pastEnd_of_le h), fun k hk => readV_setRegsFrom_bytesAtI hk (advance _ s),
    fun k hk => ?_, rfl, rfl, (changesOnly_effect_advance (.ldRegs x) _ s).mono (by simp [writesOf])⟩
  exact readV_effect_of_writesReg (i := .ldRegs x) (decide_eq_false (Nat.not_le.2 hk)) (advance _ s)

/-- Settles O45: the load reads the bytes the store has written, because neither moves `I`. -/
theorem storeThenLoadRestoresRegisters : Obligations.StoreThenLoadRestoresRegisters := by
  intro x s v' h
  obtain ⟨t, hstore, hbytes, -, -, -, hframe⟩ := storeRegistersInOrder x s h
  have hidx : t.idx = s.idx := hframe .idx (by decide)
  obtain ⟨u, hload, hregs, -, -, -, hframe'⟩ := loadRegistersInOrder x { t with v := v' } (hidx ▸ h)
  have hidx' : u.idx = t.idx := hframe' .idx (by decide)
  refine ⟨t, u, hstore, hload, fun k hk => ?_, hidx'.trans hidx⟩
  calc readV u k = t.mem.get (t.idx.toNat + k.toNat) := hregs k hk
    _ = t.mem.get (s.idx.toNat + k.toNat) := by rw [hidx]
    _ = readV s k := hbytes k hk

end Sys2Proof.Machine
end

section
/-! PROOFS. The framebuffer (R110 to R114): clearing it, and a sprite drawn once and twice. -/

namespace Sys2Proof.Machine

/-- Settles O46: the rule's screen has no cell on, and a second clear writes the same one. -/
theorem clearTurnsEveryCellOff : Obligations.ClearTurnsEveryCellOff := by
  intro z s
  exact ⟨_, exec_of_raises_none rfl, get_blankScreen, rfl, rfl,
    (changesOnly_effect_advance (.cls z) _ s).mono (by simp [writesOf]), _, exec_of_raises_none rfl, rfl⟩

/-! ### One draw (R112 to R114) -/

theorem pastEnd_zero (s : State) : pastEnd s 0 = none := if_neg (by omega)

/-- A sprite of no row, or one inside memory, raises nothing (R112). -/
theorem raises_drw_eq_none {x y n : Nibble} {s : State} (h : n = 0 ∨ s.idx.toNat + n.toNat ≤ 4096) :
    raises (.drw x y n) s = none := by
  obtain rfl | hin := h
  · exact pastEnd_zero s
  · exact pastEnd_of_le hin

theorem getD_bytesAtI {n k : Nat} (h : k < n) (t : State) :
    (bytesAtI n t).getD k 0 = t.mem.get (t.idx.toNat + k) := by
  simp [bytesAtI, h]

/-- The bits of the bytes at `I`, drawn from the anchor, are the bits the sprite has on the grid (R113, R114). -/
theorem rowsOn_bytesAtI (x y n : Nibble) (s : State) (r c : Nat) :
    rowsOn (anchorCol (readV s x)) (anchorRow (readV s y)) (bytesAtI n.toNat s) r c = spriteBit x y n s r c := by
  simp only [rowsOn, bitsOn, spriteBit, anchorCol, anchorRow, Config.fbCols, Config.fbRows, length_bytesAtI,
    Nat.sub_self, Nat.add_zero]
  by_cases hrow : (readV s y).toNat % 32 ≤ r ∧ r < (readV s y).toNat % 32 + n.toNat
  · rw [getD_bytesAtI (by omega)]
    simp [hrow]
  · rw [decide_eq_false hrow, Bool.false_and]
    simp [← and_assoc, hrow]

theorem flagByte_eq_one_iff (f : Bool) : flagByte f = 1 ↔ f = true := by cases f <;> decide

/-- A cell on the grid after a draw: its old value XOR the sprite's bit for it. -/
theorem get_effect_drw {x y n : Nibble} {r c : Nat} (hr : r < 32) (hc : c < 64) (w : Word) (s : State) :
    (effect (.drw x y n) (advance w s)).fb.get r c = (s.fb.get r c ^^ spriteBit x y n s r c) :=
  ((drawRows_spec _ (bytesAtI n.toNat s) _ (s.fb, false)).1 r c hr hc).trans
    (congrArg _ (rowsOn_bytesAtI x y n s r c))

/-- The flag after a draw: 1 exactly where a cell on the grid was on under a 1 bit of the sprite. -/
theorem readV_effect_drw_eq_one_iff (x y n : Nibble) (w : Word) (s : State) :
    readV (effect (.drw x y n) (advance w s)) 15#4 = 1 ↔
      ∃ r c, r < 32 ∧ c < 64 ∧ s.fb.get r c = true ∧ spriteBit x y n s r c = true := by
  have hflag : readV (effect (.drw x y n) (advance w s)) 15#4 = flagByte (drawRows (anchorCol (readV s x))
      (anchorRow (readV s y)) (bytesAtI n.toNat s) (s.fb, false)).2 := readV_writeV_self ..
  rw [hflag, flagByte_eq_one_iff, (drawRows_spec ..).2]
  simp only [rowsOn_bytesAtI, Bool.false_eq_true, false_or]

/-- Settles O47: the rule draws the bytes at `I`, whose bits are the sprite's, and then writes the flag. -/
theorem drawXorsExactlyTheSprite : Obligations.DrawXorsExactlyTheSprite := by
  intro x y n s h
  have hflag := readV_effect_drw_eq_one_iff x y n (encode (.drw x y n)) s
  refine ⟨_, exec_of_raises_none (raises_drw_eq_none h), fun _ _ hr hc => get_effect_drw hr hc _ s, ?_,
    fun _ hr => readV_writeV_of_ne (List.ne_of_not_mem_cons hr) _ _, rfl, rfl,
    (changesOnly_effect_advance (.drw x y n) _ s).mono (by simp [writesOf])⟩
  obtain ⟨f, hf⟩ := readV_effect_flagReg (i := .drw x y n) rfl (advance (encode (.drw x y n)) s)
  obtain h0 | h1 := flagByte_eq_zero_or_one f
  · have hzero := hf.trans h0
    refine .inr ⟨hzero, fun r c hr hc hhit => ?_⟩
    exact absurd (hzero.symm.trans (hflag.2 ⟨r, c, hr, hc, hhit⟩)) (by decide)
  · exact .inl ⟨hf.trans h1, hflag.1 (hf.trans h1)⟩

/-! ### Two draws -/

/-- The sprite's bits depend on the anchor, `I` and memory only. -/
theorem spriteBit_congr {x y n : Nibble} {s t : State} (hx : (readV t x).toNat % 64 = (readV s x).toNat % 64)
    (hy : (readV t y).toNat % 32 = (readV s y).toNat % 32) (hidx : Part.idx.Same s t) (hmem : Part.mem.Same s t)
    (r c : Nat) : spriteBit x y n t r c = spriteBit x y n s r c := by
  simp only [Part.Same] at hidx hmem
  simp only [spriteBit, hx, hy, hidx, hmem]

/-- Two framebuffers with the same cells on the grid are the same. -/
theorem Screen.ext_grid {f g : Screen} (h : ∀ r c, r < 32 → c < 64 → f.get r c = g.get r c) : f = g := by
  refine Screen.ext_get fun r c => ?_
  by_cases hgrid : r < Config.fbRows ∧ c < Config.fbCols
  · exact h r c hgrid.1 hgrid.2
  · rw [Screen.get_outside f hgrid, Screen.get_outside g hgrid]

/-- Settles O48: where the place is the same, so are the sprite's bits, and a cell XOR one bit twice is the cell. -/
theorem drawTwiceRestoresTheScreen : Obligations.DrawTwiceRestoresTheScreen := by
  intro x y n s h
  obtain ⟨t, hdraw, hcell, -, hregs, -, -, hframe⟩ := drawXorsExactlyTheSprite x y n s h
  have hidx : t.idx = s.idx := hframe .idx (by decide)
  refine ⟨t, _, hdraw, exec_of_raises_none (raises_drw_eq_none (hidx ▸ h)), fun hx => hregs x (by simpa using hx),
    fun hy => hregs y (by simpa using hy), fun hx hy => ?_⟩
  have hbit := spriteBit_congr (n := n) hx hy hidx (hframe .mem (by decide))
  refine ⟨Screen.ext_grid fun r c hr hc => ?_, (readV_effect_drw_eq_one_iff x y n _ t).trans ?_⟩
  · rw [get_effect_drw hr hc, hbit, hcell r c hr hc, Bool.xor_assoc, Bool.xor_self, Bool.xor_false]
  · refine exists_congr fun r => exists_congr fun c => and_congr_right fun hr => and_congr_right fun hc => ?_
    rw [hcell r c hr hc, hbit]
    cases s.fb.get r c <;> cases spriteBit x y n s r c <;> decide

end Sys2Proof.Machine
end

section
/-! PROOFS. Timers and keypad (R116 to R124): the skips on keys, the timer instructions, the key wait, and the sound
timer that no instruction reads. -/

namespace Sys2Proof

/-- The mask 0xF0FF leaves the primary code and the trailing byte, so that a word is its match value with the register
number put in (R51). -/
theorem formatXK_of_and_F0FF {w : Word} {op : Nibble} {kk : Byte} (h : w &&& 0xF0FF#16 = formatXK op 0 kk) :
    formatXK op (fieldX w) kk = w := by
  have hop : fieldOp (w &&& 0xF0FF#16) = fieldOp w := BitVec.extractLsb'_and.trans BitVec.and_allOnes
  have hkk := fieldKK_and_F0FF w
  rw [h, fieldOp_formatXK] at hop
  rw [h, fieldKK_formatXK] at hkk
  exact hkk ▸ formatXK_of_fieldOp hop.symm

end Sys2Proof

namespace Sys2Proof.Machine

/-! ### The sound timer (R118) -/

/-- The state an instruction leaves where `ST` held `b` before it, from the one it leaves otherwise: `Fx18` has
overwritten `ST`, every other instruction has kept it. -/
def withSoundBefore (i : Instr) (b : Byte) (t : State) : State :=
  match i with
  | .ldSTVx _ => t
  | _ => { t with st := b }

theorem awaitKey_setST (x : Nibble) (t : State) (b : Byte) :
    awaitKey x { t with st := b } = { awaitKey x t with st := b } := by
  cases hkey : t.env.input.keyPress with
  | none => rw [awaitKey_none hkey, awaitKey_none (t := { t with st := b }) hkey]; rfl
  | some k => rw [awaitKey_some hkey, awaitKey_some (t := { t with st := b }) hkey]; rfl

/-- No instruction's rule reads `ST`. -/
theorem effect_setST (i : Instr) (t : State) (b : Byte) :
    effect i { t with st := b } = withSoundBefore i b (effect i t) := by
  cases i with
  | ldVxK x => exact awaitKey_setST x t b
  | _ => rfl

/-- A fault keeps `ST`; `Fx18`, which would not, raises none. -/
theorem raise_setST {i : Instr} {s : State} {e : FaultSignal} (h : raises i s = some e) (w : Word) (b : Byte) :
    raise e w { s with st := b } = withSoundBefore i b (raise e w s) := by
  cases i with
  | ldSTVx => cases h
  | _ => rfl

/-- Settles O16: neither an instruction's fault condition nor its rule reads the sound timer. -/
theorem soundTimerIsReadByNoInstruction : Obligations.SoundTimerIsReadByNoInstruction := by
  intro i s b
  change ∃ t, exec i s = .next t ∧ exec i { s with st := b } = .next (withSoundBefore i b t)
  have hraises : raises i { s with st := b } = raises i s := raises_congr i rfl rfl
  cases hr : raises i s with
  | none =>
    exact ⟨_, exec_of_raises_none hr, (exec_of_raises_none (hraises.trans hr)).trans
      (congrArg _ (effect_setST i (advance (encode i) s) b))⟩
  | some e =>
    exact ⟨_, exec_of_raises_some hr, (exec_of_raises_some (hraises.trans hr)).trans
      (congrArg _ (raise_setST hr _ b))⟩

/-! ### Skips on keys (R116, R117, R122) -/

theorem keyHeld_lowNibble (t : State) (b : Byte) :
    keyHeld t (lowNibble b) = t.env.input.keysHeld.getLsbD (b.toNat % 16) := by
  rw [keyHeld, toNat_lowNibble]

theorem pc_effect_skp (x : Nibble) (w : Word) (s : State) :
    (effect (.skp x) (advance w s)).pc =
      if s.env.input.keysHeld.getLsbD ((readV s x).toNat % 16) then s.pc + 4 else s.pc + 2 := by
  simp only [effect, pc_skipIf_advance, keyHeld_lowNibble, readV_advance, advance_env]

theorem pc_effect_sknp (x : Nibble) (w : Word) (s : State) :
    (effect (.sknp x) (advance w s)).pc =
      if s.env.input.keysHeld.getLsbD ((readV s x).toNat % 16) then s.pc + 2 else s.pc + 4 := by
  simp only [effect, pc_skipIf_advance, keyHeld_lowNibble, readV_advance, advance_env, Bool.not_eq_true',
    ← Bool.not_eq_true, ite_not]

/-- Settles O49, each skip by its condition. -/
theorem skipsOnKeys : Obligations.SkipsOnKeys := by
  refine fun x s => ⟨?_, ?_⟩
  · exact ⟨_, exec_of_raises_none rfl, rfl, pc_effect_skp x _ s, changesOnly_effect_advance (.skp x) _ s⟩
  · exact ⟨_, exec_of_raises_none rfl, rfl, pc_effect_sknp x _ s, changesOnly_effect_advance (.sknp x) _ s⟩

/-! ### The timer instructions (R118, R120, R121, R123) -/

/-- A running core that completes an instruction goes on to the timer phase. -/
theorem finish_effect_advance {s : State} (hrun : s.status = .running) (i : Instr) (w : Word) :
    finish (effect i (advance w s)) = timerPhase (effect i (advance w s)) :=
  finish_running ((effect_status ..).trans hrun)

/-- Settles O50: the timer phase, which comes last, counts what the instruction has left in the timers. -/
theorem timerInstructionsReadAndWrite : Obligations.TimerInstructionsReadAndWrite := by
  refine fun w s hrun => ⟨fun h => ?_, fun h => ?_, fun h => ?_⟩
  · have hdec : decodeWord w = some (.ldVxDT (fieldX w)) := decodeWord_of_encode (formatXK_of_and_F0FF h)
    have hfinish := finish_effect_advance hrun (.ldVxDT (fieldX w)) w
    obtain ⟨hdt, -, -⟩ := timerPhase_counts (effect (.ldVxDT (fieldX w)) (advance w s))
    exact ⟨hdec, _, exec_of_decodeWord hdec rfl, hfinish ▸ readV_writeV_self .., hfinish ▸ hdt,
      frame_writeV_advance ..⟩
  · have hdec : decodeWord w = some (.ldDTVx (fieldX w)) := decodeWord_of_encode (formatXK_of_and_F0FF h)
    have hfinish := finish_effect_advance hrun (.ldDTVx (fieldX w)) w
    obtain ⟨hdt, -, -⟩ := timerPhase_counts (effect (.ldDTVx (fieldX w)) (advance w s))
    exact ⟨hdec, _, exec_of_decodeWord hdec rfl, rfl, hfinish ▸ hdt, rfl, rfl,
      (changesOnly_effect_advance (.ldDTVx _) w s).mono (by simp [writesOf])⟩
  · have hdec : decodeWord w = some (.ldSTVx (fieldX w)) := decodeWord_of_encode (formatXK_of_and_F0FF h)
    have hfinish := finish_effect_advance hrun (.ldSTVx (fieldX w)) w
    obtain ⟨-, hst, htone⟩ := timerPhase_counts (effect (.ldSTVx (fieldX w)) (advance w s))
    exact ⟨hdec, _, exec_of_decodeWord hdec rfl, rfl, hfinish ▸ hst, hfinish ▸ htone, rfl, rfl,
      (changesOnly_effect_advance (.ldSTVx _) w s).mono (by simp [writesOf])⟩

/-! ### The key wait (R119, R124) -/

theorem toNat_zextNibble (k : Nibble) : (zextNibble k).toNat = k.toNat :=
  BitVec.toNat_setWidth_of_le (by decide)

theorem changesOnly_setIR (w : Word) (s : State) : ChangesOnly [.ir] s { s with ir := w } := by
  intro p hp
  cases p <;> simp [Part.Same, readV] at hp ⊢

/-- With no key the wait goes back over the advance, so that `IR` is all it has written. -/
theorem effect_ldVxK_of_no_key {s : State} (h : s.env.input.keyPress = none) (x : Nibble) (w : Word) :
    effect (.ldVxK x) (advance w s) = { s with ir := w } := by
  have hback : s.pc + 2#16 - 2#16 = s.pc := BitVec.add_sub_cancel ..
  exact (awaitKey_none (t := advance w s) h).trans (by rw [advance_pc, hback]; rfl)

/-- Settles O51, by whether a key is supplied. -/
theorem keyWaitTakesTheKeyOrRepeats : Obligations.KeyWaitTakesTheKeyOrRepeats := by
  refine fun x s => ⟨fun k hkey => ?_, fun hkey => ?_⟩
  · have hrule : effect (.ldVxK x) (advance (encode (.ldVxK x)) s) = writeV x (zextNibble k) (advance _ s) :=
      awaitKey_some hkey
    exact ⟨_, (exec_of_raises_none rfl).trans (congrArg _ hrule),
      (congrArg BitVec.toNat (readV_writeV_self ..)).trans (toNat_zextNibble k), frame_writeV_advance ..⟩
  · exact ⟨_, (exec_of_raises_none rfl).trans (congrArg _ (effect_ldVxK_of_no_key hkey x _)), rfl, rfl,
      changesOnly_setIR _ s⟩

/-! ### A wait of many steps (R119, R69) -/

/-- A running machine whose next instruction is the key wait into `V[x]`. -/
structure WaitsForKey (x : Nibble) (s : State) : Prop where
  running : s.status = .running
  fetchable : fetchable s = true
  decodes : decodeWord (fetchWord s) = some (.ldVxK x)

/-- Whether a machine waits is read off the status, `PC` and memory. -/
theorem WaitsForKey.of_same {x : Nibble} {s t : State} (h : WaitsForKey x s) (hstatus : Part.status.Same s t)
    (hpc : Part.pc.Same s t) (hmem : Part.mem.Same s t) : WaitsForKey x t := by
  obtain ⟨hrun, hfetch, hdec⟩ := h
  simp only [Part.Same] at hstatus hpc hmem
  refine ⟨hstatus.trans hrun, ?_, ?_⟩
  · simpa only [Machine.fetchable, hpc] using hfetch
  · simpa only [fetchWord, hpc, hmem] using hdec

/-- A step takes the oldest of the supplied inputs (log 1). -/
theorem stepStart_env_of_script {s : State} {i : StepInput} {rest : List StepInput}
    (h : s.env.script = i :: rest) : (stepStart s).env = { s.env with input := i, script := rest } := by
  simp only [stepStart, beginStep_env, nextInput, Env.drawn, h]

/-- One step of a waiting machine in which no key comes: it still waits, the input is used up, and the timers have
counted once. -/
theorem WaitsForKey.exists_step {x : Nibble} {s : State} {i : StepInput} {rest : List StepInput}
    (h : WaitsForKey x s) (hscript : s.env.script = i :: rest) (hkey : i.keyPress = none) :
    ∃ t, step s = .next t ∧ WaitsForKey x t ∧ t.env.script = rest ∧ t.dt.toNat = s.dt.toNat - 1 ∧
      t.st.toNat = s.st.toNat - 1 ∧ ChangesOnly [.dt, .st, .ir, .tone, .unrec, .env, .loadOpen] s t := by
  have henv := stepStart_env_of_script hscript
  have hrule := effect_ldVxK_of_no_key (s := stepStart s) (by rw [henv]; exact hkey) x (fetchWord s)
  have hstep := hrule ▸ step_of_raises_none h.running h.fetchable h.decodes rfl
  have hframe := ((changesOnly_stepStart s).trans (changesOnly_setIR (fetchWord s) _)).trans (changesOnly_timerPhase _)
  exact ⟨_, hstep, h.of_same rfl rfl (fun _ => rfl), congrArg Env.script henv,
    countDown_toNat _, countDown_toNat _, hframe.mono (by simp)⟩

/-- Any number of steps of a waiting machine, by induction on the inputs supplied to them. -/
theorem WaitsForKey.exists_run {x : Nibble} {inputs rest : List StepInput} {s : State} (h : WaitsForKey x s)
    (hscript : s.env.script = inputs ++ rest) (hkeys : ∀ i ∈ inputs, i.keyPress = none) :
    ∃ t, core.run inputs.length s = .next t ∧ WaitsForKey x t ∧ t.env.script = rest ∧
      t.dt.toNat = s.dt.toNat - inputs.length ∧ t.st.toNat = s.st.toNat - inputs.length ∧
      ChangesOnly [.dt, .st, .ir, .tone, .unrec, .env, .loadOpen] s t := by
  induction inputs generalizing s with
  | nil => exact ⟨s, rfl, h, hscript, rfl, rfl, ChangesOnly.refl s⟩
  | cons i inputs ih =>
    obtain ⟨hkey, hlater⟩ := List.forall_mem_cons.1 hkeys
    obtain ⟨t, hstep, ht, hleft, hdt, hst, hframe⟩ := h.exists_step hscript hkey
    obtain ⟨u, hrun, hu, hrest, hdt', hst', hframe'⟩ := ih ht hleft hlater
    have hlen : (i :: inputs).length = inputs.length + 1 := List.length_cons
    exact ⟨u, (run_succ_of_step (M := core) hstep _).trans hrun, hu, hrest, by omega, by omega,
      (hframe.trans hframe').mono (by simp)⟩

/-- Settles O52. -/
theorem keyWaitHoldsWhileNoKeyComes : Obligations.KeyWaitHoldsWhileNoKeyComes := by
  intro x inputs rest s hrun hfetch hdec hscript hkeys
  have hwait : WaitsForKey x s := ⟨hrun, hfetch, hdec⟩
  obtain ⟨t, hsteps, ht, hrest, hdt, hst, hframe⟩ := hwait.exists_run hscript hkeys
  exact ⟨t, hsteps, ht.running, hframe .pc (by decide), hrest, hdt, hst, hframe⟩

end Sys2Proof.Machine
end

section
/-! PROOFS. Fatal faults (R125 to R131): whatever raises one, its whole effect is the entry of R127. -/

namespace Sys2Proof.Machine

/-- A running core that a step leaves faulted has entered the fault from the start of that step, whichever of the fetch
and the instruction raised it. -/
theorem StepCase.exists_raise {s t : State} {c : Fault} (h : StepCase s t) (hrun : s.status = .running)
    (hfaulted : t.status = .faulted c) : ∃ e w, t = raise e w (stepStart s) := by
  cases h with
  | inert hinert => simp [hrun] at hinert
  | fetchFault | raised => exact ⟨_, _, rfl⟩
  | unrecognized | completed => simp [stepStart, hrun] at hfaulted

/-- Settles O13: the entry into a fault, from the state before the instruction and from the start of the step. -/
theorem fatalFaultsArePrecise : Obligations.FatalFaultsArePrecise := by
  constructor
  · intro i s e hraises
    exact ⟨_, exec_of_raises_some hraises, rfl, rfl, rfl, rfl, changesOnly_raise e _ s⟩
  · intro s t c hrun hstep hfaulted
    obtain ⟨e, w, rfl⟩ := (stepCase_of_step hstep).exists_raise hrun hfaulted
    exact ⟨rfl, rfl, rfl, changesOnly_raise_stepStart e w s⟩

end Sys2Proof.Machine
end

section
/-! PROOFS. Program load (R149, R150, D19): what a legal `Load` copies and keeps, and when a `Load` is refused. -/

namespace Sys2Proof.Machine

/-! ### What `Load` answers -/

theorem imageFits_iff (bytes : List Byte) : imageFits bytes = true ↔ 0x200 + bytes.length ≤ 4096 :=
  decide_eq_true_iff

/-- The state after a program image is copied from 0x200 up and the place for a load is closed. -/
def loaded (bytes : List Byte) (s : State) : State :=
  { s with mem := copyBytes s.mem Config.progBase bytes, loadOpen := false }

theorem load_of_fits {bytes : List Byte} {s : State} (hopen : s.loadOpen = true)
    (hfits : 0x200 + bytes.length ≤ 4096) : load bytes s = .ok (loaded bytes s) :=
  (if_pos hopen).trans (if_pos ((imageFits_iff bytes).2 hfits))

theorem load_of_too_large {bytes : List Byte} {s : State} (hopen : s.loadOpen = true)
    (hlarge : 4096 < 0x200 + bytes.length) : load bytes s = .programTooLarge :=
  (if_pos hopen).trans (if_neg (mt (imageFits_iff bytes).1 (Nat.not_le.2 hlarge)))

theorem load_of_closed (bytes : List Byte) {s : State} (hclosed : s.loadOpen = false) :
    load bytes s = .refused .loadOutsideSession :=
  if_neg (Bool.not_eq_true _ ▸ hclosed)

/-! ### What a successful `Load` writes and keeps -/

theorem get_loaded_add {bytes : List Byte} {k : Nat} (hk : k < bytes.length) (s : State) :
    (loaded bytes s).mem.get (0x200 + k) = bytes[k] := by
  change Memory.get (copyBytes s.mem 0x200 bytes) (0x200 + k) = bytes[k]
  simp only [get_copyBytes, Nat.add_sub_cancel_left, Nat.le_add_right, true_and, dif_pos hk]

theorem keepsBytesBut_loaded (bytes : List Byte) (s : State) :
    KeepsBytesBut 0x200 bytes.length s (loaded bytes s) := by
  intro a hout
  exact (get_copyBytes bytes s.mem 0x200 a).trans (dif_neg (by omega))

theorem changesOnly_loaded (bytes : List Byte) (s : State) : ChangesOnly [.mem, .loadOpen] s (loaded bytes s) := by
  intro p hp
  cases p <;> simp [Part.Same, readV, loaded] at hp ⊢

/-- A legal load is of a running core, so the invariant has no latched fault to speak of after it. -/
theorem inv_loaded {bytes : List Byte} {s : State} (hopen : s.loadOpen = true)
    (hfits : 0x200 + bytes.length ≤ 4096) (h : Inv s) : Inv (loaded bytes s) :=
  have hrun : s.status = .running := h.open_running hopen
  inv_of_running hrun (wf_copyBytes bytes hfits h.mem_wf) h.pc_le h.stack_le (h.running_info hrun)

/-- Settles O21: the state after the load, and what it holds part by part. -/
theorem loadCopiesTheImage : Obligations.LoadCopiesTheImage := by
  intro bytes s hopen hfits
  exact ⟨loaded bytes s, load_of_fits hopen hfits, fun _ hk => get_loaded_add hk s, keepsBytesBut_loaded bytes s,
    changesOnly_loaded bytes s, rfl, inv_loaded hopen hfits⟩

/-! ### The place for a `Load` closes with the first step -/

@[simp] theorem effect_loadOpen (i : Instr) (t : State) : (effect i t).loadOpen = t.loadOpen :=
  effect_keeps i t (p := .loadOpen) (by decide)

/-- A faulted core keeps the record of the place; every step of a running core closes it at its start. -/
theorem StepCase.loadOpen_eq_false {s t : State} (h : StepCase s t)
    (hs : s.status = .running ∨ s.loadOpen = false) : t.loadOpen = false := by
  cases h with
  | inert hfaulted => simpa [hfaulted] using hs
  | fetchFault | unrecognized | raised => rfl
  | completed => exact effect_loadOpen ..

/-- The place stays closed over any number of steps, however they end. -/
theorem exists_run_of_loadOpen_false (n : Nat) {s : State} (hclosed : s.loadOpen = false) :
    ∃ t, core.run n s = .next t ∧ t.loadOpen = false := by
  induction n generalizing s with
  | zero => exact ⟨s, rfl, hclosed⟩
  | succ n ih =>
    obtain ⟨u, hstep, hcase⟩ := exists_stepCase s
    obtain ⟨t, hrun, ht⟩ := ih (hcase.loadOpen_eq_false (.inr hclosed))
    exact ⟨t, (run_succ_of_step (M := core) hstep n).trans hrun, ht⟩

/-- One step or more of a running core leaves the place closed. -/
theorem exists_run_succ_of_running (n : Nat) {s : State} (hrun : s.status = .running) :
    ∃ t, core.run (n + 1) s = .next t ∧ t.loadOpen = false := by
  obtain ⟨u, hstep, hcase⟩ := exists_stepCase s
  obtain ⟨t, hsteps, ht⟩ := exists_run_of_loadOpen_false n (hcase.loadOpen_eq_false (.inl hrun))
  exact ⟨t, (run_succ_of_step (M := core) hstep n).trans hsteps, ht⟩

/-- Settles O22: the two ways a load is not performed, and a place that no step leaves open. -/
theorem loadRejectsTooLargeOrLate : Obligations.LoadRejectsTooLargeOrLate := by
  intro bytes s
  refine ⟨rfl, load_of_too_large, load_of_closed bytes, fun hrun n => ?_⟩
  obtain ⟨t, hsteps, ht⟩ := exists_run_succ_of_running n hrun
  exact ⟨t, hsteps, ht, load_of_closed bytes ht⟩

end Sys2Proof.Machine
end
